-- ==== Sys2Proof/Word.lean ====
section
/-! DEFINITION. The word, the byte and the register number (00_scope R6, R9; 10_state R20, R21). -/

namespace Sys2Proof

/-- A register, a memory cell, an address, an instruction: "every register, cell and address is an unsigned
16-bit value" (00_scope R9). `+` and `-` on it are modulo 65536. -/
abbrev Word := BitVec 16

/-- A byte of the input queue or the output sequence, 0..255 (00_scope R9). -/
abbrev Byte := BitVec 8

/-- The number i of a general register Ri, i in 0..7 (10_state R21). -/
abbrev Reg := Fin 8

end Sys2Proof
end

