-- ==== Sys2Proof/Config.lean ====
section
/-! DEFINITION. What is fixed of this hardware (00_scope R6) and what the spec leaves open as a parameter (00_scope R7). -/

namespace Sys2Proof.Config

/-- The fixed start address of the program counter (00_scope R6, 70_reset R191). -/
def startPC : Word := 0x3000#16

/-- KBSR, the keyboard status cell: the one address whose read has a side effect (20_memory R42, R46). -/
def kbsr : Word := 0xFE00#16

/-- KBDR, the keyboard data cell (20_memory R43, R46). -/
def kbdr : Word := 0xFE02#16

/-- The number of memory cells (00_scope R6, 20_memory R40). -/
def memorySize : Nat := 65536

/-- The open parameter `IN_PROMPT` (00_scope R7, 92_eei_decisions D12): the bytes IN writes before it reads. No value
of it can be proved, so a claim about IN holds for every prompt (log 10). -/
opaque inPrompt : List Byte

/-- The open parameter `HALT_NOTICE` (00_scope R7, 92_eei_decisions D13): the bytes HALT writes (log 10). -/
opaque haltNotice : List Byte

end Sys2Proof.Config
end

