-- ==== Sys2Proof/Syntax.lean ====
section
/-! DEFINITION. The instructions: one constructor for each of the 25 rows of the opcode table, with the operand fields of
30_encoding R61 to R65. Bits that no field uses are no part of an instruction (R67), but for RTI, RES and TRAP: a fatal
condition records the whole instruction word (60_exceptions R170), so these three keep their ignored bits (log 5). -/

namespace Sys2Proof

inductive Instr where
  /-- ADD, register form (40_alu R101). -/
  | addReg (dr sr1 sr2 : Reg)
  /-- ADD, immediate form (40_alu R102). -/
  | addImm (dr sr1 : Reg) (imm5 : BitVec 5)
  /-- AND, register form (40_alu R103). -/
  | andReg (dr sr1 sr2 : Reg)
  /-- AND, immediate form (40_alu R104). -/
  | andImm (dr sr1 : Reg) (imm5 : BitVec 5)
  /-- NOT (40_alu R105). -/
  | notReg (dr sr : Reg)
  /-- BR; the mask's bits are n, z, p from the top (41_control R110, 30_encoding R64). -/
  | br (nzp : BitVec 3) (off9 : BitVec 9)
  /-- JMP; RET is JMP R7 (41_control R112). -/
  | jmp (baseR : Reg)
  /-- JSR (41_control R113). -/
  | jsr (off11 : BitVec 11)
  /-- JSRR (41_control R114). -/
  | jsrr (baseR : Reg)
  /-- LD (42_load R120). -/
  | ld (dr : Reg) (off9 : BitVec 9)
  /-- LDI (42_load R121). -/
  | ldi (dr : Reg) (off9 : BitVec 9)
  /-- LDR (42_load R122). -/
  | ldr (dr baseR : Reg) (off6 : BitVec 6)
  /-- LEA (42_load R123). -/
  | lea (dr : Reg) (off9 : BitVec 9)
  /-- ST (43_store R130). -/
  | st (sr : Reg) (off9 : BitVec 9)
  /-- STI (43_store R131). -/
  | sti (sr : Reg) (off9 : BitVec 9)
  /-- STR (43_store R132). -/
  | str (sr baseR : Reg) (off6 : BitVec 6)
  /-- TRAP (44_trap R140). The words of the six service vectors decode to the six constructors below, so a well-formed
  `trap` carries another vector; `ignored` is bits 11:8. -/
  | trap (ignored : BitVec 4) (vect8 : Byte)
  /-- TRAP x20 (44_trap R141). -/
  | getc
  /-- TRAP x21 (44_trap R142). -/
  | out
  /-- TRAP x22 (44_trap R143). -/
  | puts
  /-- TRAP x23, the service IN (44_trap R144). -/
  | inp
  /-- TRAP x24 (44_trap R145). -/
  | putsp
  /-- TRAP x25 (44_trap R146). -/
  | halt
  /-- RTI, reserved (45_reserved R160); `ignored` is bits 11:0. -/
  | rti (ignored : BitVec 12)
  /-- RES, reserved (45_reserved R161); `ignored` is bits 11:0. -/
  | res (ignored : BitVec 12)
deriving DecidableEq, Repr

end Sys2Proof
end

