-- ==== Sys2Proof/Machine/State.lean ====
section
/-! DEFINITION. The state: everything 10_state gives the machine, as plain data, and its value after reset (R32). -/

namespace Sys2Proof.Machine

/-- COND holds "exactly one of three mutually exclusive flag values at any time" (10_state R23). -/
inductive Cond where
  /-- NEGATIVE (N) -/
  | neg
  /-- ZERO (Z) -/
  | zero
  /-- POSITIVE (P) -/
  | pos
deriving DecidableEq, Repr

/-- The two kinds of fatal condition, with the information recorded (60_exceptions R170): the opcode or the vector, the
instruction word, the instruction address. -/
inductive FatalInfo where
  /-- Raised by RTI and RES (45_reserved R160, R161). -/
  | reservedOpcode (opcode : BitVec 4) (word address : Word)
  /-- Raised by TRAP with a vector outside 0x20..0x25 (44_trap R147). -/
  | unknownTrapVector (vector : Byte) (word address : Word)
deriving DecidableEq, Repr

/-- The run outcome (10_state R26). -/
inductive Status where
  | running
  | halted
  | fatal (info : FatalInfo)
  | interrupted
deriving DecidableEq, Repr

/-- The service whose `InRead()` the core waits in (00_scope R16; log 3). -/
inductive InputWait where
  | getc
  | inp
deriving DecidableEq, Repr

/-- A memory cell that does not hold 0x0000: its address and its content (20_memory R40; log 1). -/
abbrev MemCell := Nat × Word

/-- Memory: the cells that do not hold 0x0000, by strictly rising address. An address that is not listed reads as
0x0000, the content of every cell at startup (20_memory R40, 10_state R32). -/
abbrev Memory := List MemCell

/-- The machine's state (10_state R20 to R32). -/
structure State where
  /-- R0 to R7 (10_state R21). -/
  regs : Vector Word 8
  /-- The program counter (10_state R22). -/
  pc : Word
  /-- The condition flags (10_state R23). -/
  cond : Cond
  /-- The run flag (10_state R25). -/
  running : Bool
  /-- The run outcome (10_state R26). -/
  status : Status
  /-- The 65536 cells, the two device registers among them (10_state R29, 20_memory R46). -/
  mem : Memory
  /-- The input queue, oldest byte first (10_state R30, 00_scope R16). -/
  inq : List Byte
  /-- The output sequence, oldest byte first (10_state R30, 00_scope R17). -/
  outq : List Byte
  /-- Whether the core waits for input inside GETC or IN, and in which (00_scope R16, 60_exceptions R176). The spec only
  implies this field: DEDUCED, log 3. -/
  waiting : Option InputWait
deriving DecidableEq, Repr

/-- The closed enumeration that indexes the ten entries of the register file (10_state R20). -/
inductive RegIndex where
  | gpr (r : Reg)
  | pc
  | cond
deriving DecidableEq, Repr

/-- Why there is no step from a state. No instruction's effect is one of these: a fatal condition is a state (log 5). -/
inductive Fault where
  /-- Raised by `step` where the run is over: "once not `Running` ... the core has no further step" (10_state R26,
  30_encoding R81). Safe: the spec gives no step. -/
  | runEnded
  /-- Raised by `step` where the core waits in GETC or IN and the input queue is empty: "while the core waits in
  `InRead()` it has no step; only a host append lifts the wait" (00_scope R16). Safe: the spec gives no step, and the
  state is unchanged, so that the host's append lets it go on (log 12). -/
  | waitingForInput
  /-- Raised by PUTS and PUTSP where no cell of the whole memory is zero: "the walk never ends and the step never
  completes" (44_trap R143, R145, 92_eei_decisions D10). Safe: the spec gives no next state (log 6). -/
  | stringNeverEnds
deriving DecidableEq, Repr

/-- Why the model gives no meaning. -/
inductive Refusal where
  /-- Raised by an arm of `exec` whose instruction has no meaning yet; no arm does. Safe. -/
  | notModelled (mnemonic : String)
deriving DecidableEq, Repr

/-- Why a launch is refused (70_reset R194, 92_eei_decisions D18; log 15). -/
inductive LaunchRefusal where
  /-- Raised for an image of fewer than 2 bytes. Safe: "a model refuses such a launch". -/
  | noOrigin
  /-- Raised for an image of an odd number of bytes. Safe, as above. -/
  | oddLength
  /-- Raised for an image whose words would pass 0xFFFF. Safe, as above. -/
  | pastEnd
deriving DecidableEq, Repr

/-- What the host may do to a running core (60_exceptions R185); images are loaded before the first step. -/
inductive HostAction where
  /-- Append bytes to the input queue. -/
  | supply (bytes : List Byte)
  /-- Read the output sequence. -/
  | takeOutput
  /-- End the run (60_exceptions R176). -/
  | interrupt
  /-- Enter or restore raw terminal mode (00_scope R18). -/
  | terminalMode
deriving DecidableEq, Repr

/-- The machine right after reset, before any image is loaded (10_state R32, 70_reset R190). The input queue may hold any
bytes there; it is empty here: DESIGN CHOICE, log 2. -/
def State.reset : State where
  regs := Vector.replicate 8 0#16
  pc := Config.startPC
  cond := .zero
  running := true
  status := .running
  mem := []
  inq := []
  outq := []
  waiting := none

end Sys2Proof.Machine
end

