-- ==== Sys2Proof/Machine/Ops.lean ====
section
/-! DEFINITION. The operations every instruction is written from: cells of memory, registers, the memory contract of
20_memory R42 and R44, input, output, the string walk, trap entry and the fatal condition. -/

namespace Sys2Proof.Machine

/-! ### Cells -/

/-- `mem[a]`, the raw content of cell `a` (00_scope R12): a cell that is not listed holds 0x0000. -/
def cellRead : Memory → Nat → Word
  | [], _ => 0#16
  | (b, v) :: rest, a => if a = b then v else cellRead rest a

/-- The memory in which cell `a` holds 0x0000 again. -/
def cellErase (m : Memory) (a : Nat) : Memory := m.filter fun c => c.1 != a

/-- `(a, v)` put before the first cell of a higher address. -/
def cellInsert : Memory → Nat → Word → Memory
  | [], a, v => [(a, v)]
  | (b, u) :: rest, a, v => if a < b then (a, v) :: (b, u) :: rest else (b, u) :: cellInsert rest a v

/-- `mem[a] <- v` (00_scope R12). A cell that holds 0x0000 is not listed (log 1). -/
def cellWrite (m : Memory) (a : Nat) (v : Word) : Memory :=
  if v = 0#16 then cellErase m a else cellInsert (cellErase m a) a v

/-- The canonical form of a memory: addresses strictly rising and below 65536, no cell that holds 0x0000 (log 1). -/
abbrev Memory.wf (m : Memory) : Prop :=
  m.Pairwise (fun c d => c.1 < d.1) ∧ ∀ c ∈ m, c.2 ≠ 0#16 ∧ c.1 < Config.memorySize

/-- The raw `mem[a]` of a state, with no side effect (00_scope R12). -/
def State.peek (s : State) (a : Word) : Word := cellRead s.mem a.toNat

/-- The raw `mem[a] <- v` of a state (00_scope R12). -/
def State.poke (s : State) (a : Word) (v : Word) : State :=
  { s with mem := cellWrite s.mem a.toNat v }

/-! ### Registers -/

/-- `x[r]` (00_scope R11): no register is hardwired or banked (10_state R21). -/
def State.reg (s : State) (r : Reg) : Word := s.regs.get r

/-- `x[r] <- v` (00_scope R11). -/
def State.setReg (s : State) (r : Reg) (v : Word) : State :=
  { s with regs := s.regs.set r.val v r.isLt }

/-- `pc <- target` (00_scope R11). -/
def State.setPc (s : State) (target : Word) : State := { s with pc := target }

/-! ### Input and output -/

/-- `OutWrite(b)` for each byte of `bs` in order: the output is append-only (00_scope R17). `OutFlush()` has no effect
on the state (R17, D14), so it has no operation. -/
def State.outWrite (s : State) (bs : List Byte) : State := { s with outq := s.outq ++ bs }

/-- `zext_8` of a byte (00_scope R10). -/
def zext8 (b : Byte) : Word := b.setWidth 16

/-- The low byte, bits 7:0 (20_memory R49). -/
def lowByte (v : Word) : Byte := v.extractLsb' 0 8

/-- The high byte, bits 15:8 (20_memory R49). -/
def highByte (v : Word) : Byte := v.extractLsb' 8 8

/-! ### The memory contract -/

/-- The keyboard poll of 20_memory R42: with a byte in the queue KBSR becomes 0x8000 (D5) and KBDR the byte, which is
consumed (D6); with none KBSR becomes 0x0000 and KBDR is left alone (R43). Log 11. -/
def State.poll (s : State) : State :=
  match s.inq with
  | [] => s.poke Config.kbsr 0x0000#16
  | b :: rest => ({ s with inq := rest }.poke Config.kbsr 0x8000#16).poke Config.kbdr (zext8 b)

/-- The state after the side effect of a read of `a`: "only the address 0xFE00 triggers the poll" (20_memory R42). -/
def State.afterRead (s : State) (a : Word) : State := if a = Config.kbsr then s.poll else s

/-- `MemRead(a, 1)` (20_memory R42): the poll if there is one, then the cell as it then stands; value and state. -/
def memRead (a : Word) (s : State) : Word × State := ((s.afterRead a).peek a, s.afterRead a)

/-- `MemWrite(a, 1, v)` (20_memory R44): "stores the 16-bit value unconditionally at any address", no side effect. -/
def memWrite (a : Word) (v : Word) (s : State) : State := s.poke a v

/-! ### Fatal conditions, traps -/

/-- `raise Fatal(kind, info)` (60_exceptions R170): the status records it and the core has no further step. Every effect
before the raise stays (R171), so the state goes on as a state (log 5). -/
def raiseFatal (info : FatalInfo) (s : State) : State := { s with status := .fatal info }

/-- The address of the instruction being executed, PC - 1 at the raise point (60_exceptions R170). -/
def State.instrAddress (s : State) : Word := s.pc - 1#16

/-- Trap entry (60_exceptions R175, 44_trap R140): "What it saves: the return address, in R7"; PC, flags, memory and
everything else stay. There is no return from a trap but the service's completion (R177): the next fetch is from PC. -/
def trapEntry (s : State) : State := s.setReg 7 s.pc

/-! ### The string walk of PUTS and PUTSP -/

/-- The bytes written from address `a` on, reading at most `fuel` cells raw, wrapping modulo 65536, up to the first zero
cell (44_trap R143, R145); `none` if none of these cells is zero. -/
def walkString (m : Memory) (bytesOf : Word → List Byte) : Nat → Word → Option (List Byte)
  | 0, _ => none
  | fuel + 1, a =>
    let v := cellRead m a.toNat
    if v = 0#16 then some [] else (walkString m bytesOf fuel (a + 1#16)).map (bytesOf v ++ ·)

/-- The walk from R0 over the whole memory, 65536 cells. The walk writes nothing that it reads, so a walk that meets no
zero cell on one round never ends (44_trap R143, D10): no next state, the fault `stringNeverEnds` (log 6). -/
def writeString (bytesOf : Word → List Byte) (s : State) : Host.Outcome State Fault Refusal :=
  match walkString s.mem bytesOf Config.memorySize (s.reg 0) with
  | some bs => .next (s.outWrite bs)
  | none => .fault .stringNeverEnds

/-- PUTS writes the low byte of a cell (44_trap R143). -/
def putsBytes (v : Word) : List Byte := [lowByte v]

/-- PUTSP writes the low byte of a cell always, then the high byte if it is nonzero (44_trap R145). -/
def putspBytes (v : Word) : List Byte :=
  if highByte v = 0#8 then [lowByte v] else [lowByte v, highByte v]

end Sys2Proof.Machine
end

