-- ==== Sys2Proof/Machine/Flags.lean ====
section
/-! DEFINITION. The flag rule (40_alu R100) and the numeric reading of COND that BR tests (10_state R23, 30_encoding R64). -/

namespace Sys2Proof.Machine

/-- The flag of a 16-bit value: "value 0 → ZERO; high bit set → NEGATIVE; otherwise → POSITIVE" (40_alu R100). -/
def condOf (v : Word) : Cond :=
  if v = 0#16 then .zero else if v.getLsbD 15 then .neg else .pos

/-- `setcc(v)` (40_alu R100). -/
def setcc (v : Word) (s : State) : State := { s with cond := condOf v }

/-- `x[DR] <- v`, then `setcc(x[DR])`: the end of every instruction that writes COND (10_state R24). -/
def writeResult (dr : Reg) (v : Word) (s : State) : State := setcc v (s.setReg dr v)

/-- COND as the 16-bit register-file entry: N = 0x0004, Z = 0x0002, P = 0x0001 (10_state R23, D4; log 4). -/
def condCode : Cond → Word
  | .neg => 0x0004#16
  | .zero => 0x0002#16
  | .pos => 0x0001#16

/-- `read(idx)` of the register file: the current 16-bit value of any of the ten entries, never a failure (10_state R20).
The entries are written by `State.setReg`, `State.setPc` and `setcc`, the only writers the spec gives them (R22, R23). -/
def State.readEntry (s : State) : RegIndex → Word
  | .gpr r => s.reg r
  | .pc => s.pc
  | .cond => condCode s.cond

/-- BR's test `(mask & COND) != 0` (41_control R110), the mask being `inst[11:9]` (30_encoding R64). -/
def branchTaken (nzp : BitVec 3) (c : Cond) : Bool := nzp.setWidth 16 &&& condCode c != 0#16

end Sys2Proof.Machine
end

