-- ==== Sys2Proof/Machine/Operands.lean ====
section
/-! DEFINITION. The operand forms: sign-extended immediates, PC-relative and base-plus-offset addresses (30_encoding R62,
42_load R124). Inside an instruction PC is already the address of the instruction plus 1 (10_state R22). -/

namespace Sys2Proof.Machine

/-- `sext_N` of an N-bit field, N in 5, 6, 9, 11 (00_scope R10): no immediate is scaled or shifted (30_encoding R62). -/
def sext {n : Nat} (f : BitVec n) : Word := f.signExtend 16

/-- `PC + sext_N(offset)` modulo 65536 (42_load R120, 41_control R110, R113). -/
def State.pcRelative {n : Nat} (s : State) (off : BitVec n) : Word := s.pc + sext off

/-- `x[BaseR] + sext_6(offset6)` modulo 65536 (42_load R122, 43_store R132). -/
def State.baseOffset (s : State) (baseR : Reg) (off6 : BitVec 6) : Word := s.reg baseR + sext off6

end Sys2Proof.Machine
end

