-- ==== Sys2Proof/Machine/Control.lean ====
section
/-! DEFINITION. BR, JMP, JSR, JSRR (41_control R110 to R114). No flag is written, no delay slot exists (R115). -/

namespace Sys2Proof.Machine

/-- BR (41_control R110). -/
def execBr (nzp : BitVec 3) (off9 : BitVec 9) (s : State) : Host.Outcome State Fault Refusal :=
  .next (if branchTaken nzp s.cond then s.setPc (s.pcRelative off9) else s)

/-- JMP (41_control R112). -/
def execJmp (baseR : Reg) (s : State) : Host.Outcome State Fault Refusal :=
  .next (s.setPc (s.reg baseR))

/-- JSR (41_control R113): the PC update "is part of the contract" (90_conflicts C2; log 17). -/
def execJsr (off11 : BitVec 11) (s : State) : Host.Outcome State Fault Refusal :=
  .next ((s.setReg 7 s.pc).setPc (s.pcRelative off11))

/-- JSRR (41_control R114): R7 is written first, then BaseR is read, so `JSRR R7` goes on at the next instruction (D16;
log 13). -/
def execJsrr (baseR : Reg) (s : State) : Host.Outcome State Fault Refusal :=
  let linked := s.setReg 7 s.pc
  .next (linked.setPc (linked.reg baseR))

end Sys2Proof.Machine
end

