-- ==== Sys2Proof/Machine/Load.lean ====
section
/-! DEFINITION. LD, LDI, LDR, LEA (42_load R120 to R123). Every read is `memRead`, with its poll (20_memory R45, D8; log 11). -/

namespace Sys2Proof.Machine

/-- `x[DR] <- MemRead(ea, 1)`, then `setcc` (42_load R120, R122). -/
def loadFrom (dr : Reg) (ea : Word) (s : State) : State :=
  let r := memRead ea s
  writeResult dr r.1 r.2

/-- LD (42_load R120). -/
def execLd (dr : Reg) (off9 : BitVec 9) (s : State) : Host.Outcome State Fault Refusal :=
  .next (loadFrom dr (s.pcRelative off9) s)

/-- LDI (42_load R121): the pointer read first, then the data read. -/
def execLdi (dr : Reg) (off9 : BitVec 9) (s : State) : Host.Outcome State Fault Refusal :=
  let p := memRead (s.pcRelative off9) s
  .next (loadFrom dr p.1 p.2)

/-- LDR (42_load R122). -/
def execLdr (dr baseR : Reg) (off6 : BitVec 6) (s : State) : Host.Outcome State Fault Refusal :=
  .next (loadFrom dr (s.baseOffset baseR off6) s)

/-- LEA (42_load R123): no memory access; the flags are updated. -/
def execLea (dr : Reg) (off9 : BitVec 9) (s : State) : Host.Outcome State Fault Refusal :=
  .next (writeResult dr (s.pcRelative off9) s)

end Sys2Proof.Machine
end

