-- ==== Sys2Proof/Machine/Reserved.lean ====
section
/-! DEFINITION. RTI and RES: always the fatal condition, and no other meaning (45_reserved R160 to R162). -/

namespace Sys2Proof.Machine

/-- The effect of a reserved opcode: `raise Fatal(ReservedOpcode, {opcode, word, address})`, nothing else. -/
def reservedOpcode (opcode : BitVec 4) (ignored : BitVec 12) (s : State) : State :=
  raiseFatal (.reservedOpcode opcode (opcode ++ ignored) s.instrAddress) s

/-- RTI, opcode 0b1000 (45_reserved R160). -/
def execRti (ignored : BitVec 12) (s : State) : Host.Outcome State Fault Refusal :=
  .next (reservedOpcode 0b1000#4 ignored s)

/-- RES, opcode 0b1101 (45_reserved R161). -/
def execRes (ignored : BitVec 12) (s : State) : Host.Outcome State Fault Refusal :=
  .next (reservedOpcode 0b1101#4 ignored s)

end Sys2Proof.Machine
end

