-- ==== Sys2Proof/Machine/Store.lean ====
section
/-! DEFINITION. ST, STI, STR (43_store R130 to R132). A store writes one whole word, no register and no flag (R133). -/

namespace Sys2Proof.Machine

/-- ST (43_store R130). -/
def execSt (sr : Reg) (off9 : BitVec 9) (s : State) : Host.Outcome State Fault Refusal :=
  .next (memWrite (s.pcRelative off9) (s.reg sr) s)

/-- STI (43_store R131): the pointer is read through the read contract, poll and all (D8; log 11). -/
def execSti (sr : Reg) (off9 : BitVec 9) (s : State) : Host.Outcome State Fault Refusal :=
  let p := memRead (s.pcRelative off9) s
  .next (memWrite p.1 (p.2.reg sr) p.2)

/-- STR (43_store R132). -/
def execStr (sr baseR : Reg) (off6 : BitVec 6) (s : State) : Host.Outcome State Fault Refusal :=
  .next (memWrite (s.baseOffset baseR off6) (s.reg sr) s)

end Sys2Proof.Machine
end

