-- ==== Sys2Proof/Machine/Trap.lean ====
section
/-! DEFINITION. TRAP and its six services (44_trap R140 to R148). Each service runs inside the TRAP's step, after the trap
entry; GETC and IN may wait there for the host (R141, R144; log 3). -/

namespace Sys2Proof.Machine

/-! ### The services, on the state after trap entry -/

/-- What GETC and IN do with the byte they read: IN echoes it, both put it in R0 with the upper byte cleared and set the
flags (44_trap R141, R144; D11, log 11). -/
def acceptByte (w : InputWait) (b : Byte) (s : State) : State :=
  match w with
  | .getc => writeResult 0 (zext8 b) s
  | .inp => writeResult 0 (zext8 b) (s.outWrite [b])

/-- `InRead()` and what follows it (00_scope R16): the head byte is removed and accepted; with an empty queue the core
waits, every effect made so far kept (60_exceptions R176, R184). -/
def readInput (w : InputWait) (s : State) : State :=
  match s.inq with
  | [] => { s with waiting := some w }
  | b :: rest => acceptByte w b { s with inq := rest, waiting := none }

/-- GETC after trap entry (44_trap R141). -/
def serviceGetc (s : State) : Host.Outcome State Fault Refusal := .next (readInput .getc s)

/-- OUT after trap entry (44_trap R142). -/
def serviceOut (s : State) : Host.Outcome State Fault Refusal := .next (s.outWrite [lowByte (s.reg 0)])

/-- PUTS after trap entry (44_trap R143). -/
def servicePuts (s : State) : Host.Outcome State Fault Refusal := writeString putsBytes s

/-- IN after trap entry (44_trap R144): the prompt is written before the wait (D12; log 10). -/
def serviceInp (s : State) : Host.Outcome State Fault Refusal := .next (readInput .inp (s.outWrite Config.inPrompt))

/-- PUTSP after trap entry (44_trap R145). -/
def servicePutsp (s : State) : Host.Outcome State Fault Refusal := writeString putspBytes s

/-- HALT after trap entry (44_trap R146; D13, log 10). -/
def serviceHalt (s : State) : Host.Outcome State Fault Refusal :=
  .next { s.outWrite Config.haltNotice with running := false, status := .halted }

/-- The whole word of a TRAP, for the record of a fatal condition (60_exceptions R170). -/
def trapWord (ignored : BitVec 4) (vect8 : Byte) : Word := 0xF#4 ++ ignored ++ vect8

/-! ### The instructions -/

/-- TRAP (44_trap R140): R7, then the service its vector selects; any other vector is fatal (R147). -/
def execTrap (ignored : BitVec 4) (vect8 : Byte) (s : State) : Host.Outcome State Fault Refusal :=
  let e := trapEntry s
  if vect8 = 0x20#8 then serviceGetc e
  else if vect8 = 0x21#8 then serviceOut e
  else if vect8 = 0x22#8 then servicePuts e
  else if vect8 = 0x23#8 then serviceInp e
  else if vect8 = 0x24#8 then servicePutsp e
  else if vect8 = 0x25#8 then serviceHalt e
  else .next (raiseFatal (.unknownTrapVector vect8 (trapWord ignored vect8) e.instrAddress) e)

/-- TRAP x20 (44_trap R140, R141). -/
def execGetc (s : State) : Host.Outcome State Fault Refusal := serviceGetc (trapEntry s)

/-- TRAP x21 (44_trap R140, R142). -/
def execOut (s : State) : Host.Outcome State Fault Refusal := serviceOut (trapEntry s)

/-- TRAP x22 (44_trap R140, R143). -/
def execPuts (s : State) : Host.Outcome State Fault Refusal := servicePuts (trapEntry s)

/-- TRAP x23 (44_trap R140, R144). -/
def execInp (s : State) : Host.Outcome State Fault Refusal := serviceInp (trapEntry s)

/-- TRAP x24 (44_trap R140, R145). -/
def execPutsp (s : State) : Host.Outcome State Fault Refusal := servicePutsp (trapEntry s)

/-- TRAP x25 (44_trap R140, R146). -/
def execHalt (s : State) : Host.Outcome State Fault Refusal := serviceHalt (trapEntry s)

/-- What a waiting core does when it is stepped: with a byte in the queue the service it waits in goes on where it
waited; with none it has no step (00_scope R16, 44_trap R141). -/
def resumeInput (w : InputWait) (s : State) : Host.Outcome State Fault Refusal :=
  match s.inq with
  | [] => .fault .waitingForInput
  | _ :: _ => .next (readInput w s)

end Sys2Proof.Machine
end

