-- ==== Sys2Proof/WellFormed.lean ====
section
/-! DEFINITION. Which instructions stand for words of their own. Every field has the width of its place in the word, so
one check is left: a `trap` that carries a service vector is another name for the service's own row. -/

namespace Sys2Proof

/-- The vectors "in the recognized set", 0x20 to 0x25 (44_trap R140, R148). -/
def isServiceVector (v : Byte) : Bool := decide (0x20 ≤ v.toNat) && decide (v.toNat ≤ 0x25)

/-- `i` is the decoding of some word: it is not a `trap` with the vector of a service row (log 9). -/
def Instr.wf (i : Instr) : Bool :=
  match i with
  | .trap _ v => !isServiceVector v
  | .addReg _ _ _ | .addImm _ _ _ | .andReg _ _ _ | .andImm _ _ _ | .notReg _ _ | .br _ _ | .jmp _ | .jsr _ | .jsrr _
  | .ld _ _ | .ldi _ _ | .ldr _ _ _ | .lea _ _ | .st _ _ | .sti _ _ | .str _ _ _ | .getc | .out | .puts | .inp
  | .putsp | .halt | .rti _ | .res _ => true

end Sys2Proof
end

