-- ==== Sys2Proof/Decode.lean ====
section
/-! DEFINITION. The decoder, total on every word (30_encoding R68, R70), and the encoder, both written from the formats
of 30_encoding R65 and the opcode map R66. The opcode numbers and most bit positions are the spec's decisions D1 and D2
(log 7); that unused bits are ignored is D3 (log 8). -/

namespace Sys2Proof

/-- `inst[15:12]` (30_encoding R60). -/
def opcodeField (w : Word) : BitVec 4 := w.extractLsb' 12 4

/-- The register a 3-bit field at bits `lo+2:lo` selects: "a field value i selects general register Ri" (30_encoding R61). -/
def regField (w : Word) (lo : Nat) : Reg := (w.extractLsb' lo 3).toFin

/-- The 3-bit field that selects a register (30_encoding R61). -/
def regBits (r : Reg) : BitVec 3 := BitVec.ofFin r

/-- ADD or AND, by the mode bit 5 (30_encoding R63). -/
def decodeAdd (w : Word) : Instr :=
  if w.getLsbD 5 then .addImm (regField w 9) (regField w 6) (w.extractLsb' 0 5)
  else .addReg (regField w 9) (regField w 6) (regField w 0)

@[inherit_doc decodeAdd]
def decodeAnd (w : Word) : Instr :=
  if w.getLsbD 5 then .andImm (regField w 9) (regField w 6) (w.extractLsb' 0 5)
  else .andReg (regField w 9) (regField w 6) (regField w 0)

/-- JSR or JSRR, by the mode bit 11 (30_encoding R63). -/
def decodeJsr (w : Word) : Instr :=
  if w.getLsbD 11 then .jsr (w.extractLsb' 0 11) else .jsrr (regField w 6)

/-- A TRAP word, by its vector `inst[7:0]`: a service row of the opcode table, else the TRAP row (44_trap R140, R148). -/
def decodeTrap (w : Word) : Instr :=
  let v : Byte := w.extractLsb' 0 8
  if v = 0x20#8 then .getc
  else if v = 0x21#8 then .out
  else if v = 0x22#8 then .puts
  else if v = 0x23#8 then .inp
  else if v = 0x24#8 then .putsp
  else if v = 0x25#8 then .halt
  else .trap (w.extractLsb' 8 4) v

/-- The decoder: a pure total function of the word (30_encoding R70), by the opcode map R66. The last opcode left is
0xF. -/
def decode (w : Word) : Instr :=
  let op := opcodeField w
  if op = 0x0#4 then .br (w.extractLsb' 9 3) (w.extractLsb' 0 9)
  else if op = 0x1#4 then decodeAdd w
  else if op = 0x2#4 then .ld (regField w 9) (w.extractLsb' 0 9)
  else if op = 0x3#4 then .st (regField w 9) (w.extractLsb' 0 9)
  else if op = 0x4#4 then decodeJsr w
  else if op = 0x5#4 then decodeAnd w
  else if op = 0x6#4 then .ldr (regField w 9) (regField w 6) (w.extractLsb' 0 6)
  else if op = 0x7#4 then .str (regField w 9) (regField w 6) (w.extractLsb' 0 6)
  else if op = 0x8#4 then .rti (w.extractLsb' 0 12)
  else if op = 0x9#4 then .notReg (regField w 9) (regField w 6)
  else if op = 0xA#4 then .ldi (regField w 9) (w.extractLsb' 0 9)
  else if op = 0xB#4 then .sti (regField w 9) (w.extractLsb' 0 9)
  else if op = 0xC#4 then .jmp (regField w 6)
  else if op = 0xD#4 then .res (w.extractLsb' 0 12)
  else if op = 0xE#4 then .lea (regField w 9) (w.extractLsb' 0 9)
  else decodeTrap w

/-- The word of an instruction, by the formats of 30_encoding R65. A bit no field uses is 0, and 1 in NOT, the values an
assembler emits (R67; DESIGN CHOICE, log 8); RTI, RES and TRAP carry theirs. -/
def encode : Instr → Word
  | .addReg dr sr1 sr2 => 0x1#4 ++ regBits dr ++ regBits sr1 ++ 0b000#3 ++ regBits sr2
  | .addImm dr sr1 imm5 => 0x1#4 ++ regBits dr ++ regBits sr1 ++ 0b1#1 ++ imm5
  | .andReg dr sr1 sr2 => 0x5#4 ++ regBits dr ++ regBits sr1 ++ 0b000#3 ++ regBits sr2
  | .andImm dr sr1 imm5 => 0x5#4 ++ regBits dr ++ regBits sr1 ++ 0b1#1 ++ imm5
  | .notReg dr sr => 0x9#4 ++ regBits dr ++ regBits sr ++ 0b111111#6
  | .br nzp off9 => 0x0#4 ++ nzp ++ off9
  | .jmp baseR => 0xC#4 ++ 0b000#3 ++ regBits baseR ++ 0b000000#6
  | .jsr off11 => 0x4#4 ++ 0b1#1 ++ off11
  | .jsrr baseR => 0x4#4 ++ 0b000#3 ++ regBits baseR ++ 0b000000#6
  | .ld dr off9 => 0x2#4 ++ regBits dr ++ off9
  | .ldi dr off9 => 0xA#4 ++ regBits dr ++ off9
  | .ldr dr baseR off6 => 0x6#4 ++ regBits dr ++ regBits baseR ++ off6
  | .lea dr off9 => 0xE#4 ++ regBits dr ++ off9
  | .st sr off9 => 0x3#4 ++ regBits sr ++ off9
  | .sti sr off9 => 0xB#4 ++ regBits sr ++ off9
  | .str sr baseR off6 => 0x7#4 ++ regBits sr ++ regBits baseR ++ off6
  | .trap ignored vect8 => 0xF#4 ++ ignored ++ vect8
  | .getc => 0xF020#16
  | .out => 0xF021#16
  | .puts => 0xF022#16
  | .inp => 0xF023#16
  | .putsp => 0xF024#16
  | .halt => 0xF025#16
  | .rti ignored => 0x8#4 ++ ignored
  | .res ignored => 0xD#4 ++ ignored

/-- The mask of an instruction's row of opcode_table.json: the bits its encoding fixes (30_encoding R65). -/
def tableMask : Instr → Word
  | .addReg _ _ _ | .addImm _ _ _ | .andReg _ _ _ | .andImm _ _ _ => 0xF020#16
  | .jsr _ | .jsrr _ => 0xF800#16
  | .getc | .out | .puts | .inp | .putsp | .halt => 0xF0FF#16
  | .notReg _ _ | .br _ _ | .jmp _ | .ld _ _ | .ldi _ _ | .ldr _ _ _ | .lea _ _ | .st _ _ | .sti _ _ | .str _ _ _
  | .trap _ _ | .rti _ | .res _ => 0xF000#16

/-- The match of an instruction's row of opcode_table.json: the values of the fixed bits (30_encoding R65, R66). -/
def tableMatch : Instr → Word
  | .addReg _ _ _ => 0x1000#16
  | .addImm _ _ _ => 0x1020#16
  | .andReg _ _ _ => 0x5000#16
  | .andImm _ _ _ => 0x5020#16
  | .notReg _ _ => 0x9000#16
  | .br _ _ => 0x0000#16
  | .jmp _ => 0xC000#16
  | .jsr _ => 0x4800#16
  | .jsrr _ => 0x4000#16
  | .ld _ _ => 0x2000#16
  | .ldi _ _ => 0xA000#16
  | .ldr _ _ _ => 0x6000#16
  | .lea _ _ => 0xE000#16
  | .st _ _ => 0x3000#16
  | .sti _ _ => 0xB000#16
  | .str _ _ _ => 0x7000#16
  | .trap _ _ => 0xF000#16
  | .getc => 0xF020#16
  | .out => 0xF021#16
  | .puts => 0xF022#16
  | .inp => 0xF023#16
  | .putsp => 0xF024#16
  | .halt => 0xF025#16
  | .rti _ => 0x8000#16
  | .res _ => 0xD000#16

/-- The instruction the decoder reads from an instruction of `nbits` bits whose bits are `w`. Every instruction is one
16-bit word in one cell, so no byte order arises (20_memory R49, 30_encoding R60); bits above `nbits` are 0, and a
number that is no word of that many bits, or is longer than an instruction, is none. -/
def decodeTableWord (nbits w : Nat) : Option Instr :=
  if nbits ≤ 16 ∧ w < 2 ^ nbits then some (decode (BitVec.ofNat 16 w)) else none

end Sys2Proof
end

