-- ==== Sys2Proof/Machine/Fetch.lean ====
section
/-! DEFINITION. The fetch of an instruction (30_encoding R80) and the guard of a step (10_state R25, R26). -/

namespace Sys2Proof.Machine

/-- "A step is enabled only while `status == Running` and `running == true`" (30_encoding R80). -/
def State.enabled (s : State) : Bool := s.running && decide (s.status = .running)

/-- `inst <- MemRead(PC, 1)`, then `PC <- PC + 1` modulo 65536 (30_encoding R80): the word and the state the instruction
executes on. A fetch from 0xFE00 polls the keyboard (20_memory R56). -/
def fetch (s : State) : Word × State :=
  let r := memRead s.pc s
  (r.1, r.2.setPc (s.pc + 1#16))

/-- The address of the next fetch if a word placed there is to be the word fetched: the PC, but for PC = 0xFE00, whose
fetch always reads the poll's own 0x8000 or 0x0000 (20_memory R56); there the fixed start address is taken (log 18). -/
def State.placeAddress (s : State) : Word := if s.pc = Config.kbsr then Config.startPC else s.pc

/-- `s` with `w` where the next fetch reads it and the next step enabled (log 18). -/
def State.placeWord (s : State) (w : Word) : State :=
  { s.poke s.placeAddress w with pc := s.placeAddress, running := true, status := .running, waiting := none }

end Sys2Proof.Machine
end

