-- ==== Sys2Proof/Machine/Step.lean ====
section
/-! DEFINITION. One step of the core (30_encoding R80). -/

namespace Sys2Proof.Machine

/-- One step: fetch, increment, decode, execute, all at once. A core that waits inside GETC or IN goes on there (log 3).
There is no step once the run is over (10_state R26, 30_encoding R81). -/
def step (s : State) : Host.Outcome State Fault Refusal :=
  if s.enabled then
    match s.waiting with
    | some w => resumeInput w s
    | none => exec (decode (fetch s).1) (fetch s).2
  else .fault .runEnded

/-- `s` with an instruction of `nbits` bits, numbered as the opcode table numbers them, stored where `step` fetches next
(every instruction is one word in one cell, 30_encoding R60). How a program comes to run otherwise: log 18. -/
def State.withFetchWord (s : State) (nbits w : Nat) : State := s.placeWord (BitVec.ofNat 16 (w % 2 ^ nbits))

end Sys2Proof.Machine
end

