-- ==== Sys2Proof/Machine/HostActions.lean ====
section
/-! DEFINITION. What the host does to the core (60_exceptions R185): loading images before the first step (70_reset R193,
R194), supplying input, taking output, interrupting. None of it is a step of the core (log 14). -/

namespace Sys2Proof.Machine

/-- A big-endian word of an image (70_reset R193): `b0 * 256 + b1`. -/
def imageWord (hi lo : Byte) : Word := hi ++ lo

/-- The words of an image; `none` if it has an odd number of bytes. -/
def imageWords : List Byte → Option (List Word)
  | [] => some []
  | [_] => none
  | hi :: lo :: rest => (imageWords rest).map (imageWord hi lo :: ·)

/-- `words` copied into consecutive cells from `a` on; loading performs no poll (70_reset R193). -/
def loadWords : List Word → Word → State → State
  | [], _, s => s
  | w :: rest, a, s => loadWords rest (a + 1#16) (s.poke a w)

/-- One image: "the first word is the origin address at which loading begins; all subsequent words are copied verbatim"
(70_reset R193; 90_conflicts C1). An image the spec does not define is refused by name (R194, D18; log 15). -/
def loadImage (image : List Byte) (s : State) : Except LaunchRefusal State :=
  if image.length < 2 then .error .noOrigin
  else match imageWords image with
    | none => .error .oddLength
    | some [] => .error .noOrigin
    | some (origin :: payload) =>
      if origin.toNat + payload.length ≤ Config.memorySize then .ok (loadWords payload origin s) else .error .pastEnd

/-- Several images "in the order given, each over the memory the previous ones left" (70_reset R193). -/
def loadImages : List (List Byte) → State → Except LaunchRefusal State
  | [], s => .ok s
  | image :: rest, s =>
    match loadImage image s with
    | .ok s' => loadImages rest s'
    | .error r => .error r

/-- Reset, then the images, with `input` already supplied by the host: the state the run starts in (70_reset R190,
10_state R32, whose `inq` is any finite sequence; log 2). The spec speaks of "one or more" images and has no rule for none: a
launch with no image is accepted here and runs over all-zero memory (DESIGN CHOICE, log 21). -/
def launch (images : List (List Byte)) (input : List Byte) : Except LaunchRefusal State :=
  loadImages images { State.reset with inq := input }

/-- A host action of 60_exceptions R185, which it takes "at any time during a run": one taken when the run is over does
nothing. The interrupt ends the run with every effect made so far kept (R176, D20; log 14). Between the append that lifts
a wait and the step that takes the byte the host may act too, by an interrupt among others: the run then ends with the
byte unread (DESIGN CHOICE, log 22). -/
def hostAct (a : HostAction) (s : State) : State :=
  if s.status = .running then
    match a with
    | .supply bytes => { s with inq := s.inq ++ bytes }
    | .takeOutput => s
    | .interrupt => { s with status := .interrupted }
    | .terminalMode => s
  else s

end Sys2Proof.Machine
end

