-- ==== Sys2Proof/Safety.lean ====
section
/-! DEFINITION. What claims are stated in: the classes of instructions the whole-machine rules name, the invariant of the
machine, the states a run reaches, and what a safe run is. -/

namespace Sys2Proof

/-- The register whose new value sets COND, for the instructions of 10_state R24; none for the others. A TRAP writes COND
only in the services GETC and IN. -/
def Instr.flagDest : Instr → Option Reg
  | .addReg dr _ _ | .addImm dr _ _ | .andReg dr _ _ | .andImm dr _ _ | .notReg dr _ => some dr
  | .ld dr _ | .ldi dr _ | .ldr dr _ _ | .lea dr _ => some dr
  | .getc | .inp => some 0
  | .trap _ v => if v = 0x20#8 ∨ v = 0x23#8 then some 0 else none
  | .br _ _ | .jmp _ | .jsr _ | .jsrr _ | .st _ _ | .sti _ _ | .str _ _ _ | .out | .puts | .putsp | .halt | .rti _
  | .res _ => none

/-- BR, JMP, JSR, JSRR: the instructions that transfer control (41_control R115). -/
def Instr.transfersControl : Instr → Bool
  | .br _ _ | .jmp _ | .jsr _ | .jsrr _ => true
  | .addReg _ _ _ | .addImm _ _ _ | .andReg _ _ _ | .andImm _ _ _ | .notReg _ _ | .ld _ _ | .ldi _ _ | .ldr _ _ _
  | .lea _ _ | .st _ _ | .sti _ _ | .str _ _ _ | .trap _ _ | .getc | .out | .puts | .inp | .putsp | .halt | .rti _
  | .res _ => false

/-- ST, STI, STR. -/
def Instr.isStore : Instr → Bool
  | .st _ _ | .sti _ _ | .str _ _ _ => true
  | .addReg _ _ _ | .addImm _ _ _ | .andReg _ _ _ | .andImm _ _ _ | .notReg _ _ | .br _ _ | .jmp _ | .jsr _ | .jsrr _
  | .ld _ _ | .ldi _ _ | .ldr _ _ _ | .lea _ _ | .trap _ _ | .getc | .out | .puts | .inp | .putsp | .halt | .rti _
  | .res _ => false

/-- LD, LDI, LDR, STI: the instructions that read a cell by `MemRead` (20_memory R45). -/
def Instr.readsByContract : Instr → Bool
  | .ld _ _ | .ldi _ _ | .ldr _ _ _ | .sti _ _ => true
  | .addReg _ _ _ | .addImm _ _ _ | .andReg _ _ _ | .andImm _ _ _ | .notReg _ _ | .br _ _ | .jmp _ | .jsr _ | .jsrr _
  | .lea _ _ | .st _ _ | .str _ _ _ | .trap _ _ | .getc | .out | .puts | .inp | .putsp | .halt | .rti _ | .res _ => false

/-- PUTS and PUTSP, by either name: the instructions that walk a string. -/
def Instr.walksString : Instr → Bool
  | .puts | .putsp => true
  | .trap _ v => v == 0x22#8 || v == 0x24#8
  | .addReg _ _ _ | .addImm _ _ _ | .andReg _ _ _ | .andImm _ _ _ | .notReg _ _ | .br _ _ | .jmp _ | .jsr _ | .jsrr _
  | .ld _ _ | .ldi _ _ | .ldr _ _ _ | .lea _ _ | .st _ _ | .sti _ _ | .str _ _ _ | .getc | .out | .inp | .halt | .rti _
  | .res _ => false

/-- TRAP and its six service rows. -/
def Instr.isTrap : Instr → Bool
  | .trap _ _ | .getc | .out | .puts | .inp | .putsp | .halt => true
  | .addReg _ _ _ | .addImm _ _ _ | .andReg _ _ _ | .andImm _ _ _ | .notReg _ _ | .br _ _ | .jmp _ | .jsr _ | .jsrr _
  | .ld _ _ | .ldi _ _ | .ldr _ _ _ | .lea _ _ | .st _ _ | .sti _ _ | .str _ _ _ | .rti _ | .res _ => false

end Sys2Proof

namespace Sys2Proof.Machine

/-- The record of a fatal condition names the instruction that raised it: its opcode or vector is the word's, the word is
one that is fatal, and its address is PC - 1; a TRAP has written R7 before (60_exceptions R170, R171, 44_trap R147). -/
def fatalRecordOk (info : FatalInfo) (s : State) : Bool :=
  match info with
  | .reservedOpcode op w a =>
    decide (op = opcodeField w) && (decide (op = 0b1000#4) || decide (op = 0b1101#4)) && decide (a = s.instrAddress)
  | .unknownTrapVector v w a =>
    decide (v = lowByte w) && decide (opcodeField w = 0xF#4) && !isServiceVector v && decide (a = s.instrAddress) &&
      decide (s.reg 7 = s.pc)

/-- The invariant of the machine. -/
structure State.Inv (s : State) : Prop where
  /-- Memory is in its canonical form (log 1). -/
  memory : Memory.wf s.mem
  /-- `running` is false exactly when HALT has ended the run (10_state R25, R26). -/
  halted : s.running = false ↔ s.status = .halted
  /-- A core that waits is inside GETC or IN: the run is not ended by the core, and R7 has been written by the trap entry
  (60_exceptions R176; log 3). -/
  waits : s.waiting ≠ none → (s.status = .running ∨ s.status = .interrupted) ∧ s.reg 7 = s.pc
  /-- A fatal end records the instruction that raised it (60_exceptions R170). -/
  record : ∀ info, s.status = .fatal info → fatalRecordOk info s = true

/-- The states of all runs: what a launch leaves, what a step of the core leaves, what a host action leaves, in any order
(60_exceptions R185). -/
inductive Reachable : State → Prop where
  | launched {images : List (List Byte)} {input : List Byte} {s : State} :
      launch images input = .ok s → Reachable s
  | stepped {s t : State} : Reachable s → step s = .next t → Reachable t
  | hostActed {s : State} (a : HostAction) : Reachable s → Reachable (hostAct a s)

/-- The run has not ended in a fatal condition (70_reset R196): what a claim about a safe program asks of every state. -/
def State.safe (s : State) : Bool :=
  match s.status with
  | .fatal _ => false
  | .running | .halted | .interrupted => true

/-- The core has no step and the run is not over: it waits for the host (70_reset R196, "waiting for ever" if the host never
supplies a byte). -/
def State.stuckOnInput (s : State) : Bool := s.enabled && s.waiting.isSome && s.inq.isEmpty

end Sys2Proof.Machine
end

