-- ==== Sys2Proof/Certificates/Slice0/Obligations.lean ====
section
/-! DEFINITION. The statements for the provers. Those whose docstring names a decision D<n> of the spec or a log entry rest
on that choice; the others say what a rule of the spec says in its own words. -/

namespace Sys2Proof.Claims

open Sys2Proof.Machine

/-! ### The vocabulary of the statements -/

/-- `c` is the flag of `v` read as a signed quantity (40_alu R100). -/
def FlagOf (v : Word) (c : Cond) : Prop :=
  (v.toInt = 0 → c = .zero) ∧ (v.toInt < 0 → c = .neg) ∧ (0 < v.toInt → c = .pos)

/-- Every general register but `r` is unchanged. -/
def RegsBut (r : Reg) (s t : State) : Prop := ∀ q, q ≠ r → t.reg q = s.reg q

/-- Every general register is unchanged. -/
def SameRegs (s t : State) : Prop := ∀ q, t.reg q = s.reg q

/-- Every cell of memory reads as before. -/
def SameMem (s t : State) : Prop := ∀ a, t.peek a = s.peek a

/-- Every cell of memory but `a` reads as before. -/
def MemBut (a : Word) (s t : State) : Prop := ∀ b, b ≠ a → t.peek b = s.peek b

/-- The run flag, the run outcome and the wait are unchanged. -/
def SameRun (s t : State) : Prop := t.running = s.running ∧ t.status = s.status ∧ t.waiting = s.waiting

/-- The input queue and the output sequence are unchanged. -/
def SameIO (s t : State) : Prop := t.inq = s.inq ∧ t.outq = s.outq

/-- `dr` holds `v`, COND is the flag of `v`, and everything else is unchanged. -/
def OnlyResult (dr : Reg) (v : Word) (s t : State) : Prop :=
  t.reg dr = v ∧ FlagOf v t.cond ∧ RegsBut dr s t ∧ t.pc = s.pc ∧ SameMem s t ∧ SameIO s t ∧ SameRun s t

/-- PC holds `target` and everything else but the registers is unchanged. -/
def OnlyPc (target : Word) (s t : State) : Prop :=
  t.pc = target ∧ t.cond = s.cond ∧ SameMem s t ∧ SameIO s t ∧ SameRun s t

/-- R7 holds the return address and every other register is unchanged. -/
def Linked (s t : State) : Prop := t.reg 7 = s.pc ∧ RegsBut 7 s t

/-- What a read of `a` by `MemRead` does (20_memory R42, R43): the value it gives and the state it leaves, with every
register, the flags, the output and the run untouched. -/
def ReadsCell (a v : Word) (s t : State) : Prop :=
  (a ≠ Config.kbsr → v = s.peek a ∧ SameMem s t ∧ t.inq = s.inq) ∧
  (a = Config.kbsr → ∀ b rest, s.inq = b :: rest →
    v = 0x8000#16 ∧ t.peek Config.kbsr = 0x8000#16 ∧ (t.peek Config.kbdr).toNat = b.toNat ∧ t.inq = rest) ∧
  (a = Config.kbsr → s.inq = [] →
    v = 0#16 ∧ t.peek Config.kbsr = 0#16 ∧ t.peek Config.kbdr = s.peek Config.kbdr ∧ t.inq = []) ∧
  (∀ c, c ≠ Config.kbsr → c ≠ Config.kbdr → t.peek c = s.peek c) ∧
  SameRegs s t ∧ t.pc = s.pc ∧ t.cond = s.cond ∧ t.outq = s.outq ∧ SameRun s t

/-- `t` is `r` with the result `v` in `dr` and its flag, nothing else changed: the end of a load whose read left `r`. -/
def LoadsInto (dr : Reg) (v : Word) (r t : State) : Prop := OnlyResult dr v r t

/-- `t` is `r` with `v` stored at `a`, nothing else changed: the end of a store. -/
def StoresAt (a v : Word) (r t : State) : Prop :=
  t.peek a = v ∧ MemBut a r t ∧ SameRegs r t ∧ t.pc = r.pc ∧ t.cond = r.cond ∧ SameIO r t ∧ SameRun r t

/-- What the output services leave: R7, the bytes appended, and everything else unchanged. -/
def OnlyOutput (bs : List Byte) (s t : State) : Prop :=
  Linked s t ∧ t.outq = s.outq ++ bs ∧ t.pc = s.pc ∧ t.cond = s.cond ∧ SameMem s t ∧ t.inq = s.inq ∧ SameRun s t

/-- What GETC and IN leave once they have read `b`, having written `bs`: R0 is the byte, COND its flag, R7 the return
address; memory, the device cells among it, is untouched. -/
def OnlyInput (b : Byte) (rest bs : List Byte) (s t : State) : Prop :=
  (t.reg 0).toNat = b.toNat ∧ FlagOf (t.reg 0) t.cond ∧ t.reg 7 = s.pc ∧ (∀ q, q ≠ 0 → q ≠ 7 → t.reg q = s.reg q) ∧
  t.inq = rest ∧ t.outq = s.outq ++ bs ∧ t.pc = s.pc ∧ SameMem s t ∧ t.running = s.running ∧ t.status = s.status ∧
  t.waiting = none

/-- What GETC and IN leave when the queue is empty, having written `bs` before the wait. -/
def OnlyWait (w : InputWait) (bs : List Byte) (s t : State) : Prop :=
  t.waiting = some w ∧ Linked s t ∧ t.outq = s.outq ++ bs ∧ t.inq = [] ∧ t.pc = s.pc ∧ t.cond = s.cond ∧ SameMem s t ∧
  t.running = s.running ∧ t.status = s.status

/-- A fatal condition: the status records it and everything else is unchanged. -/
def OnlyFatal (info : FatalInfo) (s t : State) : Prop :=
  t.status = .fatal info ∧ SameRegs s t ∧ t.pc = s.pc ∧ t.cond = s.cond ∧ SameMem s t ∧ SameIO s t ∧
  t.running = s.running ∧ t.waiting = s.waiting

/-- Where BR, JMP, JSR and JSRR send PC: BR to PC plus its offset if the mask bit of the flag that COND holds is set, else
nowhere (41_control R110; D2, D4); JMP to its base (R112); JSR to PC plus its offset (R113); JSRR to its base, read after
R7 is written (R114, D16). -/
def transferTarget (i : Instr) (s : State) : Word :=
  match i with
  | .br nzp off9 =>
    if (nzp.getLsbD 2 = true ∧ s.cond = .neg) ∨ (nzp.getLsbD 1 = true ∧ s.cond = .zero) ∨
      (nzp.getLsbD 0 = true ∧ s.cond = .pos) then s.pc + sext off9 else s.pc
  | .jmp baseR => s.reg baseR
  | .jsr off11 => s.pc + sext off11
  | .jsrr baseR => if baseR = 7 then s.pc else s.reg baseR
  | _ => s.pc

/-- `sext_N(v)` by the pseudocode of 00_scope R10: the low N bits, with the mask ORed in if the highest of them is 1. -/
def maskSext (n : Nat) (v : Word) : Word :=
  let f := v &&& BitVec.ofNat 16 (2 ^ n - 1)
  if f.getLsbD (n - 1) then f ||| (0xFFFF#16 <<< n) else f

/-- Word `k` of the payload of an image given as bytes: `b(2k+2) * 256 + b(2k+3)` (70_reset R193). -/
def payloadNat (image : List Byte) (k : Nat) : Nat :=
  (image.getD (2 * k + 2) 0#8).toNat * 256 + (image.getD (2 * k + 3) 0#8).toNat

/-- The origin of an image: `b0 * 256 + b1` (70_reset R193). -/
def originNat (image : List Byte) : Nat := (image.getD 0 0#8).toNat * 256 + (image.getD 1 0#8).toNat

end Sys2Proof.Claims

open Sys2Proof Sys2Proof.Machine Sys2Proof.Claims

/-! ### Encoding (30_encoding) -/

/-- Every word of every format of R65 decodes to its instruction, whatever its don't-care bits (R67). Rests on D1, D2, D3. -/
def Obligations.EveryFormatDecodesToItsFields : Prop :=
  (∀ (d a b : BitVec 3) (x : BitVec 2),
    decode (0b0001#4 ++ d ++ a ++ 0b0#1 ++ x ++ b) = .addReg d.toFin a.toFin b.toFin) ∧
  (∀ (d a : BitVec 3) (i : BitVec 5), decode (0b0001#4 ++ d ++ a ++ 0b1#1 ++ i) = .addImm d.toFin a.toFin i) ∧
  (∀ (d a b : BitVec 3) (x : BitVec 2),
    decode (0b0101#4 ++ d ++ a ++ 0b0#1 ++ x ++ b) = .andReg d.toFin a.toFin b.toFin) ∧
  (∀ (d a : BitVec 3) (i : BitVec 5), decode (0b0101#4 ++ d ++ a ++ 0b1#1 ++ i) = .andImm d.toFin a.toFin i) ∧
  (∀ (d a : BitVec 3) (x : BitVec 6), decode (0b1001#4 ++ d ++ a ++ x) = .notReg d.toFin a.toFin) ∧
  (∀ (n z p : BitVec 1) (o : BitVec 9), decode (0b0000#4 ++ n ++ z ++ p ++ o) = .br (n ++ z ++ p) o) ∧
  (∀ (x b : BitVec 3) (y : BitVec 6), decode (0b1100#4 ++ x ++ b ++ y) = .jmp b.toFin) ∧
  (∀ o : BitVec 11, decode (0b0100#4 ++ 0b1#1 ++ o) = .jsr o) ∧
  (∀ (x : BitVec 2) (b : BitVec 3) (y : BitVec 6), decode (0b0100#4 ++ 0b0#1 ++ x ++ b ++ y) = .jsrr b.toFin) ∧
  (∀ (d : BitVec 3) (o : BitVec 9), decode (0b0010#4 ++ d ++ o) = .ld d.toFin o) ∧
  (∀ (d : BitVec 3) (o : BitVec 9), decode (0b1010#4 ++ d ++ o) = .ldi d.toFin o) ∧
  (∀ (d b : BitVec 3) (o : BitVec 6), decode (0b0110#4 ++ d ++ b ++ o) = .ldr d.toFin b.toFin o) ∧
  (∀ (d : BitVec 3) (o : BitVec 9), decode (0b1110#4 ++ d ++ o) = .lea d.toFin o) ∧
  (∀ (r : BitVec 3) (o : BitVec 9), decode (0b0011#4 ++ r ++ o) = .st r.toFin o) ∧
  (∀ (r : BitVec 3) (o : BitVec 9), decode (0b1011#4 ++ r ++ o) = .sti r.toFin o) ∧
  (∀ (r b : BitVec 3) (o : BitVec 6), decode (0b0111#4 ++ r ++ b ++ o) = .str r.toFin b.toFin o) ∧
  (∀ (x : BitVec 4) (v : Byte), isServiceVector v = false → decode (0b1111#4 ++ x ++ v) = .trap x v) ∧
  (∀ x : BitVec 4, decode (0b1111#4 ++ x ++ 0x20#8) = .getc ∧ decode (0b1111#4 ++ x ++ 0x21#8) = .out ∧
    decode (0b1111#4 ++ x ++ 0x22#8) = .puts ∧ decode (0b1111#4 ++ x ++ 0x23#8) = .inp ∧
    decode (0b1111#4 ++ x ++ 0x24#8) = .putsp ∧ decode (0b1111#4 ++ x ++ 0x25#8) = .halt) ∧
  (∀ x : BitVec 12, decode (0b1000#4 ++ x) = .rti x ∧ decode (0b1101#4 ++ x) = .res x)

/-- Decoding the encoding of a well-formed instruction gives it back, every operand at every value. Rests on D1, D2. -/
def Obligations.DecodeOfEncodeIsTheInstruction : Prop := ∀ i : Instr, i.wf = true → decode (encode i) = i

/-- Decoding is total and agrees with the opcode table: the instruction a word decodes to is well formed, the word matches
its row, and only a TRAP word can match another row, its service's (R66, R68, R70). Rests on D1, D2. -/
def Obligations.DecodeAgreesWithTheOpcodeTable : Prop :=
  ∀ w : Word, (decode w).wf = true ∧ w &&& tableMask (decode w) = tableMatch (decode w) ∧
    ∀ i : Instr, i.wf = true → w &&& tableMask i = tableMatch i →
      tableMatch i = tableMatch (decode w) ∨ (w &&& 0xF000#16 = 0xF000#16 ∧ tableMatch i = 0xF000#16)

/-- Words written out from the formats of R65 decode to the instructions they stand for (95_test_vectors 2.2). Rests on
D1, D2, D3. -/
def Obligations.WrittenOutWordsDecode : Prop :=
  decode 0x0000#16 = .br 0#3 0#9 ∧ decode 0x1419#16 = .addReg 2 0 1 ∧ decode 0x1025#16 = .addImm 0 0 5#5 ∧
  decode 0x56E0#16 = .andImm 3 3 0#5 ∧ decode 0x923F#16 = .notReg 1 0 ∧ decode 0xCEBF#16 = .jmp 2 ∧
  decode 0x4C00#16 = .jsr 0x400#11 ∧ decode 0x41C0#16 = .jsrr 7 ∧ decode 0xA201#16 = .ldi 1 1#9 ∧
  decode 0x64FF#16 = .ldr 2 3 0x3F#6 ∧ decode 0xB401#16 = .sti 2 1#9 ∧ decode 0x7060#16 = .str 0 1 0x20#6 ∧
  decode 0xFF25#16 = .halt ∧ decode 0xF026#16 = .trap 0#4 0x26#8 ∧ decode 0x8FFF#16 = .rti 0xFFF#12

/-- 00_scope R10: `sext_N` of the field is the mask formula at each of the four widths, and `zext_N` of a byte keeps its
low bits; extending twice changes nothing (95_test_vectors E1). -/
def Obligations.SignExtensionIsTheMaskFormula : Prop :=
  (∀ v : Word, sext (v.setWidth 5 : BitVec 5) = maskSext 5 v ∧ sext (v.setWidth 6 : BitVec 6) = maskSext 6 v ∧
    sext (v.setWidth 9 : BitVec 9) = maskSext 9 v ∧ sext (v.setWidth 11 : BitVec 11) = maskSext 11 v) ∧
  (∀ n ∈ [5, 6, 9, 11], ∀ v : Word, maskSext n (maskSext n v) = maskSext n v) ∧
  (∀ b : Byte, (zext8 b).toNat = b.toNat)

/-! ### Registers, memory, the keyboard (10_state, 20_memory) -/

/-- The register file: a write of one register is read back and changes no other, PC and COND stay, and every entry reads
as 16 bits (10_state R20, R21). COND's number is D4, log 4. -/
def Obligations.RegistersHaveNoAliases : Prop :=
  ∀ (s : State) (r : Reg) (v : Word),
    (s.setReg r v).readEntry (.gpr r) = v ∧
    (∀ q, q ≠ r → (s.setReg r v).readEntry (.gpr q) = s.readEntry (.gpr q)) ∧
    (s.setReg r v).readEntry .pc = s.readEntry .pc ∧ (s.setReg r v).readEntry .cond = s.readEntry .cond ∧
    (s.readEntry .cond = 0x0004#16 ∨ s.readEntry .cond = 0x0002#16 ∨ s.readEntry .cond = 0x0001#16)

/-- 20_memory R44: a write stores the value at any address and changes nothing else; KBDR reads back what was stored;
KBSR never does, since the read rewrites it. -/
def Obligations.WriteContract : Prop :=
  ∀ (s : State) (a v : Word),
    StoresAt a v s (memWrite a v s) ∧
    (memRead Config.kbdr (memWrite Config.kbdr v s)).1 = v ∧
    ((memRead Config.kbsr (memWrite Config.kbsr v s)).1 = 0x8000#16 ∨
      (memRead Config.kbsr (memWrite Config.kbsr v s)).1 = 0#16)

/-- 20_memory R42, R43: the read contract at every address, with and without a byte in the queue. Rests on D5, D6. -/
def Obligations.ReadContract : Prop :=
  ∀ (s : State) (a : Word), ReadsCell a (memRead a s).1 s (memRead a s).2

/-- Two memories in canonical form that read the same at every address are the same data: the representation is the
model's choice (log 1). -/
def Obligations.EqualReadsAreEqualMemories : Prop :=
  ∀ s t : State, Memory.wf s.mem → Memory.wf t.mem → SameMem s t → s.mem = t.mem

/-! ### The flag rule (40_alu R100, 10_state R24) -/

/-- 10_state R24: the listed instructions set COND from the value they write to their destination, all others leave it
unchanged. GETC and IN are stated with a byte in the queue; without one the spec gives them no step. -/
def Obligations.CondIsWrittenOnlyByTheListedInstructions : Prop :=
  ∀ (i : Instr) (s t : State), exec i s = .next t →
    (∀ dr, i.flagDest = some dr → s.inq ≠ [] ∨ (i ≠ .getc ∧ i ≠ .inp ∧ ∀ x v, i ≠ .trap x v) →
      FlagOf (t.reg dr) t.cond) ∧
    (i.flagDest = none → t.cond = s.cond)

/-- An instruction that begins to wait for input has left COND as it was, and begins to wait only with an empty queue
(60_exceptions R176; that the wait is a state is log 3). -/
def Obligations.CondIsUnchangedWhileWaiting : Prop :=
  ∀ (i : Instr) (s t : State), exec i s = .next t → s.waiting = none → t.waiting ≠ none → t.cond = s.cond ∧ s.inq = []

/-! ### ALU (40_alu) -/

/-- ADD, both forms: the sum modulo 65536, its flag, nothing else (R101, R102). -/
def Obligations.AddResult : Prop :=
  ∀ (s : State) (dr sr1 sr2 : Reg) (imm5 : BitVec 5),
    (∃ t v, exec (.addReg dr sr1 sr2) s = .next t ∧ OnlyResult dr v s t ∧
      v.toNat = ((s.reg sr1).toNat + (s.reg sr2).toNat) % 65536) ∧
    (∃ t v, exec (.addImm dr sr1 imm5) s = .next t ∧ OnlyResult dr v s t ∧
      ((v.toNat : Int) = ((s.reg sr1).toNat + imm5.toInt) % 65536))

/-- AND, both forms: each bit, its flag, nothing else (R103, R104). -/
def Obligations.AndResult : Prop :=
  ∀ (s : State) (dr sr1 sr2 : Reg) (imm5 : BitVec 5),
    (∃ t v, exec (.andReg dr sr1 sr2) s = .next t ∧ OnlyResult dr v s t ∧
      ∀ k : Nat, v.getLsbD k = ((s.reg sr1).getLsbD k && (s.reg sr2).getLsbD k)) ∧
    (∃ t v, exec (.andImm dr sr1 imm5) s = .next t ∧ OnlyResult dr v s t ∧
      ∀ k : Nat, v.getLsbD k = ((s.reg sr1).getLsbD k && imm5.getLsbD (min k 4)))

/-- NOT: every bit complemented, its flag, nothing else (R105). -/
def Obligations.NotResult : Prop :=
  ∀ (s : State) (dr sr : Reg), ∃ t v, exec (.notReg dr sr) s = .next t ∧ OnlyResult dr v s t ∧
    v.toNat = 65535 - (s.reg sr).toNat

/-! ### Control transfer (41_control) -/

/-- BR: taken exactly when the mask bit of the flag that COND holds is set, to PC plus the offset modulo 65536; otherwise
nothing changes. So a mask of 000 never branches and 111 always does (R110, 30_encoding R69). Rests on D2, D4. -/
def Obligations.BranchResult : Prop :=
  ∀ (s : State) (nzp : BitVec 3) (off9 : BitVec 9), ∃ t target, exec (.br nzp off9) s = .next t ∧
    SameRegs s t ∧ OnlyPc target s t ∧
    (((nzp.getLsbD 2 = true ∧ s.cond = .neg) ∨ (nzp.getLsbD 1 = true ∧ s.cond = .zero) ∨
        (nzp.getLsbD 0 = true ∧ s.cond = .pos)) → (target.toNat : Int) = (s.pc.toNat + off9.toInt) % 65536) ∧
    (¬((nzp.getLsbD 2 = true ∧ s.cond = .neg) ∨ (nzp.getLsbD 1 = true ∧ s.cond = .zero) ∨
        (nzp.getLsbD 0 = true ∧ s.cond = .pos)) → target = s.pc)

/-- JMP: PC takes the base register, nothing else changes (R112). -/
def Obligations.JumpResult : Prop :=
  ∀ (s : State) (baseR : Reg), ∃ t, exec (.jmp baseR) s = .next t ∧ SameRegs s t ∧ OnlyPc (s.reg baseR) s t

/-- JSR: R7 takes the return address, PC that plus the offset modulo 65536, nothing else changes (R113, C2). -/
def Obligations.JsrResult : Prop :=
  ∀ (s : State) (off11 : BitVec 11), ∃ t target, exec (.jsr off11) s = .next t ∧ Linked s t ∧ OnlyPc target s t ∧
    (target.toNat : Int) = (s.pc.toNat + off11.toInt) % 65536

/-- JSRR: R7 takes the return address, then PC the base register, which for R7 is that return address; nothing else
changes (R114). The order is D16. -/
def Obligations.JsrrResult : Prop :=
  ∀ (s : State) (baseR : Reg), ∃ t, exec (.jsrr baseR) s = .next t ∧ Linked s t ∧
    OnlyPc (if baseR = 7 then s.pc else s.reg baseR) s t

/-! ### Loads and stores (42_load, 43_store). Addresses are formed as R41 says, modulo 65536. -/

/-- LD: the cell at PC plus the offset, by the read contract, its flag, nothing else (R120). Rests on D8. -/
def Obligations.LdResult : Prop :=
  ∀ (s : State) (dr : Reg) (off9 : BitVec 9) (ea : Word), (ea.toNat : Int) = (s.pc.toNat + off9.toInt) % 65536 →
    ∃ t r v, exec (.ld dr off9) s = .next t ∧ ReadsCell ea v s r ∧ LoadsInto dr v r t

/-- LDI: the pointer read first, then the data read, both by the read contract (R121). Rests on D8. -/
def Obligations.LdiResult : Prop :=
  ∀ (s : State) (dr : Reg) (off9 : BitVec 9) (ea : Word), (ea.toNat : Int) = (s.pc.toNat + off9.toInt) % 65536 →
    ∃ t q r p v, exec (.ldi dr off9) s = .next t ∧ ReadsCell ea p s q ∧ ReadsCell p v q r ∧ LoadsInto dr v r t

/-- LDR: the cell at the base register plus the offset, the base being read before the destination is written (R122).
Rests on D8. -/
def Obligations.LdrResult : Prop :=
  ∀ (s : State) (dr baseR : Reg) (off6 : BitVec 6) (ea : Word),
    (ea.toNat : Int) = ((s.reg baseR).toNat + off6.toInt) % 65536 →
    ∃ t r v, exec (.ldr dr baseR off6) s = .next t ∧ ReadsCell ea v s r ∧ LoadsInto dr v r t

/-- LEA: PC plus the offset modulo 65536, its flag; no memory is read, so nothing polls (R123). -/
def Obligations.LeaResult : Prop :=
  ∀ (s : State) (dr : Reg) (off9 : BitVec 9), ∃ t v, exec (.lea dr off9) s = .next t ∧ OnlyResult dr v s t ∧
    (v.toNat : Int) = (s.pc.toNat + off9.toInt) % 65536

/-- ST: the register stored at PC plus the offset, every other cell and all else unchanged (R130). -/
def Obligations.StResult : Prop :=
  ∀ (s : State) (sr : Reg) (off9 : BitVec 9) (ea : Word), (ea.toNat : Int) = (s.pc.toNat + off9.toInt) % 65536 →
    ∃ t, exec (.st sr off9) s = .next t ∧ StoresAt ea (s.reg sr) s t

/-- STI: the pointer read by the read contract, then the register stored there (R131). Rests on D8. -/
def Obligations.StiResult : Prop :=
  ∀ (s : State) (sr : Reg) (off9 : BitVec 9) (ea : Word), (ea.toNat : Int) = (s.pc.toNat + off9.toInt) % 65536 →
    ∃ t r p, exec (.sti sr off9) s = .next t ∧ ReadsCell ea p s r ∧ StoresAt p (s.reg sr) r t

/-- STR: the register stored at the base register plus the offset, every other cell and all else unchanged (R132). -/
def Obligations.StrResult : Prop :=
  ∀ (s : State) (sr baseR : Reg) (off6 : BitVec 6) (ea : Word),
    (ea.toNat : Int) = ((s.reg baseR).toNat + off6.toInt) % 65536 →
    ∃ t, exec (.str sr baseR off6) s = .next t ∧ StoresAt ea (s.reg sr) s t

/-- 43_store R133: every store writes one whole word, the whole register, and writes no register and no flag; nor PC, nor
the output, nor the run, nor any other cell. STI's pointer comes by the read contract (D8), so where the pointer lies at
0xFE00, and only there, KBSR, KBDR and the input queue are as that read's poll leaves them. -/
def Obligations.StoresWriteWholeWordsAndNothingElse : Prop :=
  ∀ (i : Instr) (s t : State), i.isStore = true → exec i s = .next t →
    SameRegs s t ∧ t.cond = s.cond ∧ t.pc = s.pc ∧ t.outq = s.outq ∧ SameRun s t ∧
    match i with
    | .st r o => t.peek (s.pcRelative o) = s.reg r ∧ MemBut (s.pcRelative o) s t ∧ t.inq = s.inq
    | .str r b o => t.peek (s.baseOffset b o) = s.reg r ∧ MemBut (s.baseOffset b o) s t ∧ t.inq = s.inq
    | .sti r o =>
      t.peek (memRead (s.pcRelative o) s).1 = s.reg r ∧
      MemBut (memRead (s.pcRelative o) s).1 (memRead (s.pcRelative o) s).2 t ∧ t.inq = (memRead (s.pcRelative o) s).2.inq ∧
      (s.pcRelative o ≠ Config.kbsr → MemBut (memRead (s.pcRelative o) s).1 s t ∧ t.inq = s.inq) ∧
      ∀ b, b ≠ (memRead (s.pcRelative o) s).1 → b ≠ Config.kbsr → b ≠ Config.kbdr → t.peek b = s.peek b
    | _ => False

/-! ### TRAP and its services (44_trap) -/

/-- TRAP with an unknown vector: R7 is written, then the fatal condition with its record; nothing else (R147). The record
is D17; that the end of the run is a state is log 5. -/
def Obligations.UnknownTrapVectorIsFatal : Prop :=
  ∀ (s : State) (x : BitVec 4) (v : Byte), isServiceVector v = false →
    ∃ t, exec (.trap x v) s = .next t ∧ t.status = .fatal (.unknownTrapVector v (0xF#4 ++ x ++ v) (s.pc - 1#16)) ∧
      Linked s t ∧ t.pc = s.pc ∧ t.cond = s.cond ∧ SameMem s t ∧ SameIO s t ∧ t.running = s.running ∧
      t.waiting = s.waiting

/-- TRAP selects its service by its vector alone, whatever bits 11:8 hold, and does what that service's row does
(R140, R148). Rests on D3. -/
def Obligations.TrapSelectsTheService : Prop :=
  ∀ (s : State) (x : BitVec 4),
    exec (.trap x 0x20#8) s = exec .getc s ∧ exec (.trap x 0x21#8) s = exec .out s ∧
    exec (.trap x 0x22#8) s = exec .puts s ∧ exec (.trap x 0x23#8) s = exec .inp s ∧
    exec (.trap x 0x24#8) s = exec .putsp s ∧ exec (.trap x 0x25#8) s = exec .halt s

/-- Trap entry saves the return address in R7 and changes nothing else. Whatever a TRAP then does, it leaves PC where the
fetch left it and R7 holding it, writes no other register but R0, and no memory (60_exceptions R175, R177). -/
def Obligations.TrapEntrySavesOnlyTheReturnAddress : Prop :=
  (∀ s : State, Linked s (trapEntry s) ∧ OnlyPc s.pc s (trapEntry s)) ∧
  (∀ (i : Instr) (s t : State),
    i.isTrap = true → exec i s = .next t →
      t.reg 7 = s.pc ∧ t.pc = s.pc ∧ (∀ q, q ≠ 0 → q ≠ 7 → t.reg q = s.reg q) ∧ SameMem s t)

/-- GETC and IN with a byte in the queue: the byte in R0 with the upper byte cleared, its flag, R7, the byte consumed;
IN writes its prompt and the echo (R141, R144). Rests on D7, D11, D12. -/
def Obligations.InputServicesReadAByte : Prop :=
  ∀ (s : State) (b : Byte) (rest : List Byte), s.inq = b :: rest →
    (∃ t, exec .getc s = .next t ∧ OnlyInput b rest [] s t) ∧
    (∃ t, exec .inp s = .next t ∧ OnlyInput b rest (Config.inPrompt ++ [b]) s t)

/-- GETC and IN with an empty queue: the core waits, R7 written and IN's prompt in the output already (60_exceptions R176,
95_test_vectors 2.8). That the wait is a state is log 3. -/
def Obligations.InputServicesWait : Prop :=
  ∀ s : State, s.inq = [] →
    (∃ t, exec .getc s = .next t ∧ OnlyWait .getc [] s t) ∧
    (∃ t, exec .inp s = .next t ∧ OnlyWait .inp Config.inPrompt s t)

/-- OUT writes the low byte of R0 (R142). -/
def Obligations.OutResult : Prop :=
  ∀ s : State, ∃ t b, exec .out s = .next t ∧ OnlyOutput [b] s t ∧ b.toNat = (s.reg 0).toNat % 256

/-- PUTS writes the low byte of each cell from R0 up to the first zero cell, wrapping, without a poll (R143). Rests on
D9. -/
def Obligations.PutsResult : Prop :=
  ∀ (s : State) (n : Nat), n < 65536 → s.peek (s.reg 0 + BitVec.ofNat 16 n) = 0#16 →
    (∀ k < n, s.peek (s.reg 0 + BitVec.ofNat 16 k) ≠ 0#16) →
    ∃ t bs, exec .puts s = .next t ∧ OnlyOutput bs s t ∧
      bs.map BitVec.toNat = (List.range n).map fun k => (s.peek (s.reg 0 + BitVec.ofNat 16 k)).toNat % 256

/-- PUTSP writes the low byte of each cell from R0 up to the first zero cell, and its high byte after it if that is
nonzero (R145). Rests on D9. -/
def Obligations.PutspResult : Prop :=
  ∀ (s : State) (n : Nat), n < 65536 → s.peek (s.reg 0 + BitVec.ofNat 16 n) = 0#16 →
    (∀ k < n, s.peek (s.reg 0 + BitVec.ofNat 16 k) ≠ 0#16) →
    ∃ t bs, exec .putsp s = .next t ∧ OnlyOutput bs s t ∧
      bs.map BitVec.toNat = (List.range n).flatMap fun k =>
        let v := (s.peek (s.reg 0 + BitVec.ofNat 16 k)).toNat
        if v / 256 = 0 then [v % 256] else [v % 256, v / 256]

/-- PUTS and PUTSP have no next state exactly when no cell of the memory is zero: the walk never ends (R143, R145, D10;
the name of the stop is log 6). -/
def Obligations.StringWalkHangsExactlyWithoutAZeroCell : Prop :=
  ∀ s : State,
    (exec .puts s = .fault .stringNeverEnds ↔ ∀ a, s.peek a ≠ 0#16) ∧
    (exec .putsp s = .fault .stringNeverEnds ↔ ∀ a, s.peek a ≠ 0#16)

/-- HALT writes the notice, clears `running` and sets the status; R7 is the return address and nothing else changes
(R146, C4). The notice is D13's parameter. -/
def Obligations.HaltResult : Prop :=
  ∀ s : State, ∃ t, exec .halt s = .next t ∧ t.running = false ∧ t.status = .halted ∧ Linked s t ∧
    t.outq = s.outq ++ Config.haltNotice ∧ t.inq = s.inq ∧ t.pc = s.pc ∧ t.cond = s.cond ∧ SameMem s t ∧
    t.waiting = s.waiting

/-! ### Reserved opcodes and the end of a run -/

/-- RTI and RES: the fatal condition with its record, nothing else changed (45_reserved R160, R161). The record is D17;
that the end of the run is a state is log 5. -/
def Obligations.ReservedOpcodesAreFatal : Prop :=
  ∀ (s : State) (x : BitVec 12),
    (∃ t, exec (.rti x) s = .next t ∧
      OnlyFatal (.reservedOpcode 0b1000#4 (0b1000#4 ++ x) (s.pc - 1#16)) s t) ∧
    (∃ t, exec (.res x) s = .next t ∧
      OnlyFatal (.reservedOpcode 0b1101#4 (0b1101#4 ++ x) (s.pc - 1#16)) s t)

/-- 45_reserved R162: RTI and RES have no other meaning than the fatal condition of their opcode, which changes the status
and nothing else, and nothing resumes after them: whatever the host does, the status stays and the core has no further
step. The status and its record are D17; that the end of the run is a state is log 5, that the host's actions then do
nothing is log 14. -/
def Obligations.NothingResumesAfterAReservedOpcode : Prop :=
  ∀ (i : Instr) (s : State) (x : BitVec 12), i = .rti x ∨ i = .res x →
    ∃ t, exec i s = .next t ∧ OnlyFatal (.reservedOpcode (opcodeField (encode i)) (encode i) (s.pc - 1#16)) s t ∧
      ∀ (acts : List HostAction) (u : State),
        (acts.foldl (fun v a => hostAct a v) t).status = t.status ∧ step (acts.foldl (fun v a => hostAct a v) t) ≠ .next u

/-- 30_encoding R81: after HALT `running` is false and no instruction is fetched; after a fatal condition, which RTI, RES
and a TRAP with an unknown vector raise, none is either. -/
def Obligations.NoStepAfterTheRunEnds : Prop :=
  (∀ s : State, ∃ t, exec .halt s = .next t ∧ t.running = false ∧ ∀ u, step t ≠ .next u) ∧
  ∀ (i : Instr) (s : State),
    (∃ x, i = .rti x ∨ i = .res x) ∨ (∃ x v, i = .trap x v ∧ isServiceVector v = false) →
    ∃ t, exec i s = .next t ∧ ∀ u, step t ≠ .next u

/-- Once the status is not Running, no host action changes anything, a supply of bytes included: that is log 14, read from
60_exceptions R185, which gives the host its actions during a run, and 10_state R26, by which the status stays. And the
core has no step from a state in which none is enabled (10_state R26, 30_encoding R80; the status is D17, the name of the
answer log 12). -/
def Obligations.EndedRunIsFinal : Prop :=
  (∀ s : State, s.status ≠ .running → ∀ a, hostAct a s = s) ∧
  ∀ s : State, (s.running = false ∨ s.status ≠ .running) → step s = .fault .runEnded

/-- 10_state R25: `running` is true at the start of every run, the core fetches only while it is true, and the only step
that sets it false is the execution of HALT. -/
def Obligations.RunningIsClearedOnlyByHalt : Prop :=
  (∀ images input s, launch images input = .ok s → s.running = true) ∧
  (∀ s t, step s = .next t → s.running = true) ∧
  (∀ s t, step s = .next t → t.running = false →
    s.waiting = none ∧ decode (fetch s).1 = .halt ∧ t.status = .halted) ∧
  (∀ a s, (hostAct a s).running = s.running)

/-! ### The step (30_encoding R80) -/

/-- A step fetches by the read contract at PC, increments PC modulo 65536 and runs the decoded instruction (R80). -/
def Obligations.StepRunsTheDecodedInstruction : Prop :=
  ∀ (s : State) (w : Word) (i : Instr), s.status = .running → s.running = true → s.waiting = none →
    (memRead s.pc s).1 = w → decode w = i →
    step s = exec i { (memRead s.pc s).2 with pc := s.pc + 1#16 }

/-- A core that waits has no step while the queue is empty; with a byte it finishes the service it waits in, fetching
nothing (00_scope R16, 44_trap R141, R144). Log 3 and log 12. -/
def Obligations.WaitingCoreStepsOnlyWithInput : Prop :=
  ∀ (s : State) (w : InputWait), s.status = .running → s.running = true → s.waiting = some w →
    (s.inq = [] → step s = .fault .waitingForInput) ∧
    (∀ b rest, s.inq = b :: rest → ∃ t, step s = .next t ∧
      OnlyResult 0 (BitVec.ofNat 16 b.toNat) { s with inq := rest, waiting := none, outq := t.outq } t ∧
      t.outq = s.outq ++ (match w with | .getc => [] | .inp => [b]))

/-- A wait that the host lifts ends as if the byte had been in the queue from the start: the step that waited, the host's
append and the step that goes on give what one step after the append gives (30_encoding R80, D19; log 3). -/
def Obligations.LiftedWaitEqualsInputAlreadyThere : Prop :=
  ∀ (s t : State) (b : Byte) (rest : List Byte), s.waiting = none → step s = .next t → t.waiting ≠ none →
    step (hostAct (.supply (b :: rest)) t) = step (hostAct (.supply (b :: rest)) s)

/-- From every enabled state there is a next state, whatever the word: the one exception is a PUTS or PUTSP whose string
never ends (D10; the fault's name is log 6). Nothing is refused. The next state of a fatal word is the fatal end (log 5),
and that of GETC or IN with an empty queue is the wait (log 3): neither is a completion in the spec's sense (60_exceptions
R170, 44_trap R141, R144); every other word completes (60_exceptions R172). -/
def Obligations.EveryEnabledStateHasANextState : Prop :=
  (∀ s r, step s ≠ .refused r) ∧
  (∀ s : State, s.status = .running → s.running = true → s.waiting = none →
    (∃ t, step s = .next t) ∨
    (step s = .fault .stringNeverEnds ∧ (decode (fetch s).1).walksString = true ∧ ∀ a, (fetch s).2.peek a ≠ 0#16))

/-- 41_control R115: BR, JMP, JSR and JSRR complete in every state and leave PC at their target, whatever it is; the step
after them executes the word at that target, there being no delay slot and no annulment; and no other instruction changes
PC beyond the fetch increment. The targets rest on D2, D4 and D16. -/
def Obligations.PcChangesOnlyByControlTransfer : Prop :=
  (∀ (i : Instr) (s : State), i.transfersControl = true →
    ∃ t, exec i s = .next t ∧ t.pc = transferTarget i s ∧
      (s.status = .running → s.running = true → s.waiting = none →
        step t = exec (decode (memRead (transferTarget i s) t).1)
          { (memRead (transferTarget i s) t).2 with pc := transferTarget i s + 1#16 })) ∧
  (∀ (i : Instr) (s t : State), i.transfersControl = false → exec i s = .next t → t.pc = s.pc)

/-- Memory changes only by the stores and by the poll: an instruction that is no store and reads nothing by the read
contract leaves every cell; one that reads by it can change only KBSR and KBDR (20_memory R45, R48, R58). Rests on
D8, D9. -/
def Obligations.MemoryChangesOnlyByStoresAndPolls : Prop :=
  ∀ (i : Instr) (s t : State), exec i s = .next t → i.isStore = false →
    (i.readsByContract = false → SameMem s t) ∧
    (∀ a, a ≠ Config.kbsr → a ≠ Config.kbdr → t.peek a = s.peek a)

/-- The output is append-only and the input queue is consumed from its head only (00_scope R16, R17; D7, D14). -/
def Obligations.QueuesMoveOneWay : Prop :=
  ∀ s t : State, step s = .next t → s.outq <+: t.outq ∧ t.inq <:+ s.inq

/-- A store is seen by the next fetch: the word stored at an address is the word fetched there, but at 0xFE00, where the
fetch polls and reads 0x8000 or 0x0000 (20_memory R56). -/
def Obligations.FetchSeesTheStoredWord : Prop :=
  ∀ (s : State) (a v : Word),
    (a ≠ Config.kbsr → (fetch ((memWrite a v s).setPc a)).1 = v) ∧
    (∀ b rest, s.inq = b :: rest → (fetch ((memWrite a v s).setPc Config.kbsr)).1 = 0x8000#16) ∧
    (s.inq = [] → (fetch ((memWrite a v s).setPc Config.kbsr)).1 = 0#16)

/-! ### Reset, launch, the host (70_reset, 60_exceptions) -/

/-- 10_state R32: the state a run starts in, for every image and every input the host has supplied (D7): the registers,
the flags, the run, the queues; the memory is what the images make of one in which every cell, KBSR and KBDR among them,
is zero. -/
def Obligations.LaunchStateIsTheResetState : Prop :=
  ∀ images input s, launch images input = .ok s →
    (∀ q, s.reg q = 0#16) ∧ s.pc = 0x3000#16 ∧ s.cond = .zero ∧ s.running = true ∧ s.status = .running ∧
    s.outq = [] ∧ s.inq = input ∧
    ∃ empty, (∀ a, empty.peek a = 0#16) ∧ loadImages images empty = .ok s

/-- 70_reset R191: the entry point is 0x3000 whatever the images' origins: no cell and no origin moves it, and the first
fetch is the read of that cell. -/
def Obligations.EntryPointIsFixed : Prop :=
  ∀ images input s, launch images input = .ok s → s.pc = 0x3000#16 ∧ (fetch s).1 = s.peek 0x3000#16

/-- 70_reset R193: an image's words go to consecutive cells from its origin, big-endian, every other cell keeps its
content, nothing is polled; a list of one image is that image, several are loaded one after the other, and a launch loads
its images in that way. -/
def Obligations.ImagesAreLoadedVerbatim : Prop :=
  (∀ (image : List Byte) (n : Nat) (s : State), image.length = 2 * n + 2 → originNat image + n ≤ 65536 →
    ∃ t, loadImage image s = .ok t ∧
      (∀ k < n, (t.peek (BitVec.ofNat 16 (originNat image + k))).toNat = payloadNat image k) ∧
      (∀ a : Word, a.toNat < originNat image ∨ originNat image + n ≤ a.toNat → t.peek a = s.peek a) ∧
      SameRegs s t ∧ t.pc = s.pc ∧ t.cond = s.cond ∧ SameIO s t ∧ SameRun s t) ∧
  (∀ (image : List Byte) (s : State), loadImages [image] s = loadImage image s) ∧
  (∀ (first later : List (List Byte)) (s t : State), loadImages first s = .ok t →
    loadImages (first ++ later) s = loadImages later t) ∧
  (∀ (image : List Byte) (input : List Byte), launch [image] input = loadImage image { State.reset with inq := input }) ∧
  (∀ (first later : List (List Byte)) (input : List Byte) (t : State), launch first input = .ok t →
    launch (first ++ later) input = loadImages later t)

/-- 70_reset R194: an image with no origin word, of odd length or past 0xFFFF is refused, and so is every launch that
holds one (D18, log 15). -/
def Obligations.UndefinedImagesAreRefused : Prop :=
  ∀ (image : List Byte),
    (image.length < 2 ∨ image.length % 2 = 1 ∨ 65536 < originNat image + (image.length - 2) / 2) →
    (∀ s, ∃ r, loadImage image s = .error r) ∧
    ∀ before after input, ∃ r, launch (before ++ image :: after) input = .error r

/-- The host's interrupt, between steps or during a wait, sets the status and keeps everything else, the effects made
before a wait among it; no other action changes anything but the input queue (60_exceptions R176, R185). Rests on D20 and,
where an append has lifted the wait already, on log 22. -/
def Obligations.HostActionsTouchOnlyTheirOwn : Prop :=
  ∀ s : State, s.status = .running →
    hostAct .interrupt s = { s with status := .interrupted } ∧
    (∀ bs, hostAct (.supply bs) s = { s with inq := s.inq ++ bs }) ∧
    hostAct .takeOutput s = s ∧ hostAct .terminalMode s = s ∧
    ∀ t, step (hostAct .interrupt s) ≠ .next t

/-! ### The invariant -/

/-- The reset state meets the invariant. -/
def Obligations.ResetMeetsTheInvariant : Prop := State.reset.Inv

/-- Every state a launch leaves meets the invariant, and the core waits for nothing in it (log 3). -/
def Obligations.LaunchMeetsTheInvariant : Prop :=
  ∀ images input s, launch images input = .ok s → s.Inv ∧ s.waiting = none

/-- A headline: from EVERY state that meets the invariant, a step that answers a next state keeps it: memory stays in its
canonical form, `running` and the status agree, a waiting core has R7 = PC, a fatal end records the instruction that
raised it (60_exceptions R170, R171). -/
def Obligations.EveryStepKeepsTheInvariant : Prop :=
  ∀ s t : State, s.Inv → step s = .next t → t.Inv

/-- Every host action keeps the invariant. -/
def Obligations.HostActionsKeepTheInvariant : Prop := ∀ (a : HostAction) (s : State), s.Inv → (hostAct a s).Inv

/-- 70_reset R196: in every state of every run, whatever images and whatever host schedule: the run is over by HALT exactly
when `running` is false; a fatal end names the instruction one before PC; a run that is over has no further step; and a
state without a next one is one that is over, or stuck on input, or in a string that never ends (D10). The status is D17,
the answer of a stuck core log 12, the wait log 3, the fault of the string log 6. -/
def Obligations.ReachableEndsAreAccountedFor : Prop :=
  ∀ s : State, Reachable s →
    (s.status = .halted ↔ s.running = false) ∧
    (∀ info, s.status = .fatal info → fatalRecordOk info s = true ∧ s.waiting = none) ∧
    (s.safe = false ∨ s.status ≠ .running → ∀ t, step s ≠ .next t) ∧
    (s.stuckOnInput = true → step s = .fault .waitingForInput) ∧
    ((∀ t, step s ≠ .next t) →
      s.status ≠ .running ∨ s.stuckOnInput = true ∨
      (step s = .fault .stringNeverEnds ∧ (decode (fetch s).1).walksString = true ∧ ∀ a, (fetch s).2.peek a ≠ 0#16))
end

