-- ==== Sys2Proof/Laws/Decode.lean ====
section
/-! SUPPORT. The decoder by opcode (30_encoding R66), and that it gives well-formed instructions only. -/

namespace Sys2Proof

variable {w : Word}

/-- The opcode of a word written as its opcode and the other twelve bits. -/
theorem opcodeField_append (o : BitVec 4) (x : BitVec 12) : opcodeField (o ++ x) = o := by
  refine BitVec.eq_of_getLsbD_eq fun i hi => ?_
  simp only [opcodeField, BitVec.getLsbD_extractLsb', BitVec.getLsbD_append]
  interval_cases i <;> simp

theorem decode_of_opcode_br (h : opcodeField w = 0#4) : decode w = .br (w.extractLsb' 9 3) (w.extractLsb' 0 9) := by
  simp [decode, h]

theorem decode_of_opcode_add (h : opcodeField w = 1#4) : decode w = decodeAdd w := by
  simp [decode, h]

theorem decode_of_opcode_ld (h : opcodeField w = 2#4) : decode w = .ld (regField w 9) (w.extractLsb' 0 9) := by
  simp [decode, h]

theorem decode_of_opcode_st (h : opcodeField w = 3#4) : decode w = .st (regField w 9) (w.extractLsb' 0 9) := by
  simp [decode, h]

theorem decode_of_opcode_jsr_or_jsrr (h : opcodeField w = 4#4) : decode w = decodeJsr w := by
  simp [decode, h]

theorem decode_of_opcode_and (h : opcodeField w = 5#4) : decode w = decodeAnd w := by
  simp [decode, h]

theorem decode_of_opcode_ldr (h : opcodeField w = 6#4) : decode w = .ldr (regField w 9) (regField w 6) (w.extractLsb' 0 6) := by
  simp [decode, h]

theorem decode_of_opcode_str (h : opcodeField w = 7#4) : decode w = .str (regField w 9) (regField w 6) (w.extractLsb' 0 6) := by
  simp [decode, h]

theorem decode_of_opcode_rti (h : opcodeField w = 8#4) : decode w = .rti (w.extractLsb' 0 12) := by
  simp [decode, h]

theorem decode_of_opcode_not (h : opcodeField w = 9#4) : decode w = .notReg (regField w 9) (regField w 6) := by
  simp [decode, h]

theorem decode_of_opcode_ldi (h : opcodeField w = 10#4) : decode w = .ldi (regField w 9) (w.extractLsb' 0 9) := by
  simp [decode, h]

theorem decode_of_opcode_sti (h : opcodeField w = 11#4) : decode w = .sti (regField w 9) (w.extractLsb' 0 9) := by
  simp [decode, h]

theorem decode_of_opcode_jmp (h : opcodeField w = 12#4) : decode w = .jmp (regField w 6) := by
  simp [decode, h]

theorem decode_of_opcode_res (h : opcodeField w = 13#4) : decode w = .res (w.extractLsb' 0 12) := by
  simp [decode, h]

theorem decode_of_opcode_lea (h : opcodeField w = 14#4) : decode w = .lea (regField w 9) (w.extractLsb' 0 9) := by
  simp [decode, h]

theorem decode_of_opcode_trap (h : opcodeField w = 15#4) : decode w = decodeTrap w := by
  simp [decode, h]

/-- A TRAP word carries the vector of no service row when it decodes to the TRAP row. -/
theorem decodeTrap_wf (w : Word) : (decodeTrap w).wf = true := by
  have known : ∀ v : Byte, v ≠ 0x20#8 → v ≠ 0x21#8 → v ≠ 0x22#8 → v ≠ 0x23#8 → v ≠ 0x24#8 → v ≠ 0x25#8 →
      isServiceVector v = false := fun v => by
    simp only [ne_eq, ← BitVec.toNat_inj, isServiceVector, BitVec.toNat_ofNat, Bool.and_eq_false_imp,
      decide_eq_true_eq, decide_eq_false_iff_not]
    omega
  simp only [decodeTrap]
  repeat' split
  all_goals first | rfl | skip
  simpa [Instr.wf] using known _ ‹_› ‹_› ‹_› ‹_› ‹_› ‹_›

/-- Every word decodes to a well-formed instruction (30_encoding R68). -/
theorem decode_wf (w : Word) : (decode w).wf = true := by
  have some_opcode : ∀ op : BitVec 4, op = 0#4 ∨ op = 1#4 ∨ op = 2#4 ∨ op = 3#4 ∨ op = 4#4 ∨ op = 5#4 ∨ op = 6#4 ∨
      op = 7#4 ∨ op = 8#4 ∨ op = 9#4 ∨ op = 10#4 ∨ op = 11#4 ∨ op = 12#4 ∨ op = 13#4 ∨ op = 14#4 ∨ op = 15#4 := by decide
  rcases some_opcode (opcodeField w) with h | h | h | h | h | h | h | h | h | h | h | h | h | h | h | h
  · rw [decode_of_opcode_br h]; rfl
  · rw [decode_of_opcode_add h, decodeAdd]; split <;> rfl
  · rw [decode_of_opcode_ld h]; rfl
  · rw [decode_of_opcode_st h]; rfl
  · rw [decode_of_opcode_jsr_or_jsrr h, decodeJsr]; split <;> rfl
  · rw [decode_of_opcode_and h, decodeAnd]; split <;> rfl
  · rw [decode_of_opcode_ldr h]; rfl
  · rw [decode_of_opcode_str h]; rfl
  · rw [decode_of_opcode_rti h]; rfl
  · rw [decode_of_opcode_not h]; rfl
  · rw [decode_of_opcode_ldi h]; rfl
  · rw [decode_of_opcode_sti h]; rfl
  · rw [decode_of_opcode_jmp h]; rfl
  · rw [decode_of_opcode_res h]; rfl
  · rw [decode_of_opcode_lea h]; rfl
  · rw [decode_of_opcode_trap h]; exact decodeTrap_wf w

/-- So the TRAP row a word decodes to carries an unknown vector. -/
theorem decode_trap_vector {w : Word} {x : BitVec 4} {v : Byte} (h : decode w = .trap x v) :
    isServiceVector v = false := by
  have hw := decode_wf w
  rw [h] at hw
  simpa [Instr.wf] using hw

end Sys2Proof
end

