-- ==== Sys2Proof/Laws/State.lean ====
section
/-! SUPPORT. One lemma per field per update of the state, each true by unfolding the update once. -/

namespace Sys2Proof.Machine

variable (s : State)

/-! ### State.poke -/

@[simp] theorem State.poke_regs (a v : Word) : (s.poke a v).regs = s.regs := rfl
@[simp] theorem State.poke_pc (a v : Word) : (s.poke a v).pc = s.pc := rfl
@[simp] theorem State.poke_cond (a v : Word) : (s.poke a v).cond = s.cond := rfl
@[simp] theorem State.poke_running (a v : Word) : (s.poke a v).running = s.running := rfl
@[simp] theorem State.poke_status (a v : Word) : (s.poke a v).status = s.status := rfl
@[simp] theorem State.poke_mem (a v : Word) : (s.poke a v).mem = cellWrite s.mem a.toNat v := rfl
@[simp] theorem State.poke_inq (a v : Word) : (s.poke a v).inq = s.inq := rfl
@[simp] theorem State.poke_outq (a v : Word) : (s.poke a v).outq = s.outq := rfl
@[simp] theorem State.poke_waiting (a v : Word) : (s.poke a v).waiting = s.waiting := rfl
@[simp] theorem State.poke_reg (a v : Word) (q : Reg) : (s.poke a v).reg q = s.reg q := rfl

/-! ### State.setReg -/

@[simp] theorem State.setReg_regs (r : Reg) (v : Word) : (s.setReg r v).regs = s.regs.set r.val v r.isLt := rfl
@[simp] theorem State.setReg_pc (r : Reg) (v : Word) : (s.setReg r v).pc = s.pc := rfl
@[simp] theorem State.setReg_cond (r : Reg) (v : Word) : (s.setReg r v).cond = s.cond := rfl
@[simp] theorem State.setReg_running (r : Reg) (v : Word) : (s.setReg r v).running = s.running := rfl
@[simp] theorem State.setReg_status (r : Reg) (v : Word) : (s.setReg r v).status = s.status := rfl
@[simp] theorem State.setReg_mem (r : Reg) (v : Word) : (s.setReg r v).mem = s.mem := rfl
@[simp] theorem State.setReg_inq (r : Reg) (v : Word) : (s.setReg r v).inq = s.inq := rfl
@[simp] theorem State.setReg_outq (r : Reg) (v : Word) : (s.setReg r v).outq = s.outq := rfl
@[simp] theorem State.setReg_waiting (r : Reg) (v : Word) : (s.setReg r v).waiting = s.waiting := rfl
@[simp] theorem State.setReg_peek (r : Reg) (v : Word) (c : Word) : (s.setReg r v).peek c = s.peek c := rfl

/-! ### State.setPc -/

@[simp] theorem State.setPc_regs (a : Word) : (s.setPc a).regs = s.regs := rfl
@[simp] theorem State.setPc_pc (a : Word) : (s.setPc a).pc = a := rfl
@[simp] theorem State.setPc_cond (a : Word) : (s.setPc a).cond = s.cond := rfl
@[simp] theorem State.setPc_running (a : Word) : (s.setPc a).running = s.running := rfl
@[simp] theorem State.setPc_status (a : Word) : (s.setPc a).status = s.status := rfl
@[simp] theorem State.setPc_mem (a : Word) : (s.setPc a).mem = s.mem := rfl
@[simp] theorem State.setPc_inq (a : Word) : (s.setPc a).inq = s.inq := rfl
@[simp] theorem State.setPc_outq (a : Word) : (s.setPc a).outq = s.outq := rfl
@[simp] theorem State.setPc_waiting (a : Word) : (s.setPc a).waiting = s.waiting := rfl
@[simp] theorem State.setPc_reg (a : Word) (q : Reg) : (s.setPc a).reg q = s.reg q := rfl
@[simp] theorem State.setPc_peek (a : Word) (c : Word) : (s.setPc a).peek c = s.peek c := rfl

/-! ### State.outWrite -/

@[simp] theorem State.outWrite_regs (bs : List Byte) : (s.outWrite bs).regs = s.regs := rfl
@[simp] theorem State.outWrite_pc (bs : List Byte) : (s.outWrite bs).pc = s.pc := rfl
@[simp] theorem State.outWrite_cond (bs : List Byte) : (s.outWrite bs).cond = s.cond := rfl
@[simp] theorem State.outWrite_running (bs : List Byte) : (s.outWrite bs).running = s.running := rfl
@[simp] theorem State.outWrite_status (bs : List Byte) : (s.outWrite bs).status = s.status := rfl
@[simp] theorem State.outWrite_mem (bs : List Byte) : (s.outWrite bs).mem = s.mem := rfl
@[simp] theorem State.outWrite_inq (bs : List Byte) : (s.outWrite bs).inq = s.inq := rfl
@[simp] theorem State.outWrite_outq (bs : List Byte) : (s.outWrite bs).outq = s.outq ++ bs := rfl
@[simp] theorem State.outWrite_waiting (bs : List Byte) : (s.outWrite bs).waiting = s.waiting := rfl
@[simp] theorem State.outWrite_reg (bs : List Byte) (q : Reg) : (s.outWrite bs).reg q = s.reg q := rfl
@[simp] theorem State.outWrite_peek (bs : List Byte) (c : Word) : (s.outWrite bs).peek c = s.peek c := rfl

/-! ### setcc -/

@[simp] theorem setcc_regs (v : Word) : (setcc v s).regs = s.regs := rfl
@[simp] theorem setcc_pc (v : Word) : (setcc v s).pc = s.pc := rfl
@[simp] theorem setcc_cond (v : Word) : (setcc v s).cond = condOf v := rfl
@[simp] theorem setcc_running (v : Word) : (setcc v s).running = s.running := rfl
@[simp] theorem setcc_status (v : Word) : (setcc v s).status = s.status := rfl
@[simp] theorem setcc_mem (v : Word) : (setcc v s).mem = s.mem := rfl
@[simp] theorem setcc_inq (v : Word) : (setcc v s).inq = s.inq := rfl
@[simp] theorem setcc_outq (v : Word) : (setcc v s).outq = s.outq := rfl
@[simp] theorem setcc_waiting (v : Word) : (setcc v s).waiting = s.waiting := rfl
@[simp] theorem setcc_reg (v : Word) (q : Reg) : (setcc v s).reg q = s.reg q := rfl
@[simp] theorem setcc_peek (v : Word) (c : Word) : (setcc v s).peek c = s.peek c := rfl

/-! ### writeResult -/

@[simp] theorem writeResult_regs (r : Reg) (v : Word) : (writeResult r v s).regs = s.regs.set r.val v r.isLt := rfl
@[simp] theorem writeResult_pc (r : Reg) (v : Word) : (writeResult r v s).pc = s.pc := rfl
@[simp] theorem writeResult_cond (r : Reg) (v : Word) : (writeResult r v s).cond = condOf v := rfl
@[simp] theorem writeResult_running (r : Reg) (v : Word) : (writeResult r v s).running = s.running := rfl
@[simp] theorem writeResult_status (r : Reg) (v : Word) : (writeResult r v s).status = s.status := rfl
@[simp] theorem writeResult_mem (r : Reg) (v : Word) : (writeResult r v s).mem = s.mem := rfl
@[simp] theorem writeResult_inq (r : Reg) (v : Word) : (writeResult r v s).inq = s.inq := rfl
@[simp] theorem writeResult_outq (r : Reg) (v : Word) : (writeResult r v s).outq = s.outq := rfl
@[simp] theorem writeResult_waiting (r : Reg) (v : Word) : (writeResult r v s).waiting = s.waiting := rfl
@[simp] theorem writeResult_peek (r : Reg) (v : Word) (c : Word) : (writeResult r v s).peek c = s.peek c := rfl

/-! ### raiseFatal -/

@[simp] theorem raiseFatal_regs (info : FatalInfo) : (raiseFatal info s).regs = s.regs := rfl
@[simp] theorem raiseFatal_pc (info : FatalInfo) : (raiseFatal info s).pc = s.pc := rfl
@[simp] theorem raiseFatal_cond (info : FatalInfo) : (raiseFatal info s).cond = s.cond := rfl
@[simp] theorem raiseFatal_running (info : FatalInfo) : (raiseFatal info s).running = s.running := rfl
@[simp] theorem raiseFatal_status (info : FatalInfo) : (raiseFatal info s).status = .fatal info := rfl
@[simp] theorem raiseFatal_mem (info : FatalInfo) : (raiseFatal info s).mem = s.mem := rfl
@[simp] theorem raiseFatal_inq (info : FatalInfo) : (raiseFatal info s).inq = s.inq := rfl
@[simp] theorem raiseFatal_outq (info : FatalInfo) : (raiseFatal info s).outq = s.outq := rfl
@[simp] theorem raiseFatal_waiting (info : FatalInfo) : (raiseFatal info s).waiting = s.waiting := rfl
@[simp] theorem raiseFatal_reg (info : FatalInfo) (q : Reg) : (raiseFatal info s).reg q = s.reg q := rfl
@[simp] theorem raiseFatal_peek (info : FatalInfo) (c : Word) : (raiseFatal info s).peek c = s.peek c := rfl

/-! ### memWrite -/

@[simp] theorem memWrite_regs (a v : Word) : (memWrite a v s).regs = s.regs := rfl
@[simp] theorem memWrite_pc (a v : Word) : (memWrite a v s).pc = s.pc := rfl
@[simp] theorem memWrite_cond (a v : Word) : (memWrite a v s).cond = s.cond := rfl
@[simp] theorem memWrite_running (a v : Word) : (memWrite a v s).running = s.running := rfl
@[simp] theorem memWrite_status (a v : Word) : (memWrite a v s).status = s.status := rfl
@[simp] theorem memWrite_mem (a v : Word) : (memWrite a v s).mem = cellWrite s.mem a.toNat v := rfl
@[simp] theorem memWrite_inq (a v : Word) : (memWrite a v s).inq = s.inq := rfl
@[simp] theorem memWrite_outq (a v : Word) : (memWrite a v s).outq = s.outq := rfl
@[simp] theorem memWrite_waiting (a v : Word) : (memWrite a v s).waiting = s.waiting := rfl
@[simp] theorem memWrite_reg (a v : Word) (q : Reg) : (memWrite a v s).reg q = s.reg q := rfl

/-! ### trapEntry -/

@[simp] theorem trapEntry_regs : (trapEntry s).regs = s.regs.set 7 s.pc := rfl
@[simp] theorem trapEntry_pc : (trapEntry s).pc = s.pc := rfl
@[simp] theorem trapEntry_cond : (trapEntry s).cond = s.cond := rfl
@[simp] theorem trapEntry_running : (trapEntry s).running = s.running := rfl
@[simp] theorem trapEntry_status : (trapEntry s).status = s.status := rfl
@[simp] theorem trapEntry_mem : (trapEntry s).mem = s.mem := rfl
@[simp] theorem trapEntry_inq : (trapEntry s).inq = s.inq := rfl
@[simp] theorem trapEntry_outq : (trapEntry s).outq = s.outq := rfl
@[simp] theorem trapEntry_waiting : (trapEntry s).waiting = s.waiting := rfl
@[simp] theorem trapEntry_peek (c : Word) : (trapEntry s).peek c = s.peek c := rfl

/-! ### Registers: read after write (10_state R21, no aliases) -/

theorem State.reg_eq (q : Reg) : s.reg q = s.regs[q.val] := rfl

theorem State.setReg_reg (r q : Reg) (v : Word) : (s.setReg r v).reg q = if q = r then v else s.reg q := by
  rw [State.reg_eq, State.reg_eq, State.setReg_regs, Vector.getElem_set]
  simp only [Fin.ext_iff, eq_comm]

@[simp] theorem State.setReg_reg_self (r : Reg) (v : Word) : (s.setReg r v).reg r = v := by
  simp [State.setReg_reg]

@[simp] theorem State.setReg_reg_other {r q : Reg} (h : q ≠ r) (v : Word) : (s.setReg r v).reg q = s.reg q := by
  simp [State.setReg_reg, h]

@[simp] theorem writeResult_reg_self (r : Reg) (v : Word) : (writeResult r v s).reg r = v :=
  State.setReg_reg_self s r v

@[simp] theorem writeResult_reg_other {r q : Reg} (h : q ≠ r) (v : Word) : (writeResult r v s).reg q = s.reg q :=
  State.setReg_reg_other s h v

@[simp] theorem trapEntry_reg_link : (trapEntry s).reg 7 = s.pc := State.setReg_reg_self s 7 s.pc

@[simp] theorem trapEntry_reg_other {q : Reg} (h : q ≠ 7) : (trapEntry s).reg q = s.reg q :=
  State.setReg_reg_other s h s.pc

end Sys2Proof.Machine
end

