-- ==== Sys2Proof/Laws/Memory.lean ====
section
/-! SUPPORT. The laws of the cell list: what a read after a write gives, and that every memory operation keeps the
canonical form. -/

namespace Sys2Proof.Machine

/-! ### Reads -/

theorem cellRead_cellErase (m : Memory) (a b : Nat) :
    cellRead (cellErase m a) b = if b = a then 0#16 else cellRead m b := by
  induction m with
  | nil => simp [cellErase, cellRead]
  | cons c rest ih =>
    obtain ⟨k, v⟩ := c
    simp only [cellErase] at ih
    by_cases hk : k = a
    · subst hk
      by_cases hb : b = k
      · subst hb; simpa [cellErase] using ih
      · simp [cellErase, cellRead, ih, hb]
    · by_cases hb : b = k
      · subst hb; simp [cellErase, cellRead, hk]
      · simp [cellErase, cellRead, hk, hb, ih]

theorem cellRead_cellInsert (m : Memory) (a b : Nat) (v : Word) (h : ∀ c ∈ m, c.1 ≠ a) :
    cellRead (cellInsert m a v) b = if b = a then v else cellRead m b := by
  induction m with
  | nil => simp [cellInsert, cellRead]
  | cons c rest ih =>
    obtain ⟨k, u⟩ := c
    have hk : k ≠ a := h (k, u) (by simp)
    have ih := ih fun c hc => h c (by simp [hc])
    by_cases hlt : a < k
    · simp [cellInsert, cellRead, hlt]
    · by_cases hb : b = k
      · subst hb; simp [cellInsert, cellRead, hlt, hk]
      · simp [cellInsert, cellRead, hlt, hb, ih]

theorem ne_of_mem_cellErase {m : Memory} {a : Nat} {c : MemCell} (h : c ∈ cellErase m a) : c.1 ≠ a := by
  simpa using (List.mem_filter.mp h).2

/-- A read after a write gives the value written; every other cell is left alone. -/
theorem cellRead_cellWrite (m : Memory) (a b : Nat) (v : Word) :
    cellRead (cellWrite m a v) b = if b = a then v else cellRead m b := by
  by_cases hv : v = 0#16
  · subst hv; simp [cellWrite, cellRead_cellErase]
  · rw [cellWrite, if_neg hv, cellRead_cellInsert _ _ _ _ fun c hc => ne_of_mem_cellErase hc, cellRead_cellErase]
    split <;> simp_all

theorem State.poke_peek (s : State) (a b v : Word) : (s.poke a v).peek b = if b = a then v else s.peek b := by
  simp [State.peek, cellRead_cellWrite, ← BitVec.toNat_inj]

@[simp] theorem State.poke_peek_self (s : State) (a v : Word) : (s.poke a v).peek a = v := by
  simp [State.poke_peek]

@[simp] theorem State.poke_peek_other (s : State) {a b : Word} (h : b ≠ a) (v : Word) :
    (s.poke a v).peek b = s.peek b := by
  simp [State.poke_peek, h]

@[simp] theorem memWrite_peek_self (s : State) (a v : Word) : (memWrite a v s).peek a = v := State.poke_peek_self s a v

@[simp] theorem memWrite_peek_other (s : State) {a b : Word} (h : b ≠ a) (v : Word) :
    (memWrite a v s).peek b = s.peek b := State.poke_peek_other s h v

/-! ### The canonical form -/

theorem wf_nil : Memory.wf [] := by simp [Memory.wf]

theorem wf_cellErase {m : Memory} (h : Memory.wf m) (a : Nat) : Memory.wf (cellErase m a) :=
  ⟨h.1.filter _, fun c hc => h.2 c (List.mem_filter.mp hc).1⟩

theorem mem_cellInsert {m : Memory} {a : Nat} {v : Word} {c : MemCell} (h : c ∈ cellInsert m a v) :
    c = (a, v) ∨ c ∈ m := by
  induction m with
  | nil => simpa [cellInsert] using h
  | cons d rest ih =>
    obtain ⟨k, u⟩ := d
    simp only [cellInsert] at h
    split at h <;> simp only [List.mem_cons] at h ⊢
    · tauto
    · rcases h with h | h
      · tauto
      · rcases ih h with h | h <;> tauto

theorem wf_cellInsert {m : Memory} (h : Memory.wf m) {a : Nat} {v : Word} (hv : v ≠ 0#16)
    (ha : a < Config.memorySize) (hm : ∀ c ∈ m, c.1 ≠ a) : Memory.wf (cellInsert m a v) := by
  refine ⟨?_, fun c hc => ?_⟩
  · have hp := h.1
    clear h
    induction m with
    | nil => simp [cellInsert]
    | cons d rest ih =>
      obtain ⟨k, u⟩ := d
      have hk : k ≠ a := hm (k, u) (by simp)
      have hrest := List.pairwise_cons.mp hp
      simp only [cellInsert]
      split
      · rename_i hlt
        refine List.pairwise_cons.mpr ⟨fun c hc => ?_, hp⟩
        rcases List.mem_cons.mp hc with rfl | hc
        · exact hlt
        · exact Nat.lt_trans hlt (hrest.1 c hc)
      · refine List.pairwise_cons.mpr ⟨fun c hc => ?_, ih (fun c hc => hm c (by simp [hc])) hrest.2⟩
        rcases mem_cellInsert hc with rfl | hc
        · show k < a; omega
        · exact hrest.1 c hc
  · rcases mem_cellInsert hc with rfl | hc
    · exact ⟨hv, ha⟩
    · exact h.2 c hc

/-- A write keeps the canonical form. -/
theorem wf_cellWrite {m : Memory} (h : Memory.wf m) {a : Nat} (ha : a < Config.memorySize) (v : Word) :
    Memory.wf (cellWrite m a v) := by
  unfold cellWrite
  split
  · exact wf_cellErase h a
  · exact wf_cellInsert (wf_cellErase h a) ‹_› ha fun c hc => ne_of_mem_cellErase hc

theorem wf_poke {s : State} (h : Memory.wf s.mem) (a v : Word) : Memory.wf (s.poke a v).mem :=
  wf_cellWrite h a.isLt v

theorem wf_memWrite {s : State} (h : Memory.wf s.mem) (a v : Word) : Memory.wf (memWrite a v s).mem :=
  wf_poke h a v

theorem wf_reset : Memory.wf State.reset.mem := wf_nil

end Sys2Proof.Machine
end

