-- ==== Sys2Proof/Laws/Ops.lean ====
section
/-! SUPPORT. One lemma for each shared operation that says what it can do: the poll and the reads, the string walk, the
loading of images. -/

namespace Sys2Proof.Machine

/-! ### The poll and MemRead (20_memory R42, R43) -/

theorem poll_of_empty {s : State} (h : s.inq = []) : s.poll = s.poke Config.kbsr 0x0000#16 := by
  simp [State.poll, h]

theorem poll_of_byte {s : State} {b : Byte} {rest : List Byte} (h : s.inq = b :: rest) :
    s.poll = ({ s with inq := rest }.poke Config.kbsr 0x8000#16).poke Config.kbdr (zext8 b) := by
  simp [State.poll, h]

/-- The poll changes nothing but KBSR, KBDR and the input queue. -/
theorem poll_fields (s : State) :
    s.poll.regs = s.regs ∧ s.poll.pc = s.pc ∧ s.poll.cond = s.cond ∧ s.poll.running = s.running ∧
      s.poll.status = s.status ∧ s.poll.outq = s.outq ∧ s.poll.waiting = s.waiting := by
  unfold State.poll; split <;> simp

theorem poll_peek_other (s : State) {a : Word} (h1 : a ≠ Config.kbsr) (h2 : a ≠ Config.kbdr) :
    s.poll.peek a = s.peek a := by
  unfold State.poll; split
  · exact State.poke_peek_other s h1 _
  · rw [State.poke_peek_other _ h2, State.poke_peek_other _ h1]; rfl

theorem wf_poll {s : State} (h : Memory.wf s.mem) : Memory.wf s.poll.mem := by
  unfold State.poll; split
  · exact wf_poke h _ _
  · exact wf_poke (wf_poke (s := { s with inq := _ }) h _ _) _ _

@[simp] theorem afterRead_regs (s : State) (a : Word) : (s.afterRead a).regs = s.regs := by
  unfold State.afterRead; split <;> simp [poll_fields]
@[simp] theorem afterRead_pc (s : State) (a : Word) : (s.afterRead a).pc = s.pc := by
  unfold State.afterRead; split <;> simp [poll_fields]
@[simp] theorem afterRead_cond (s : State) (a : Word) : (s.afterRead a).cond = s.cond := by
  unfold State.afterRead; split <;> simp [poll_fields]
@[simp] theorem afterRead_running (s : State) (a : Word) : (s.afterRead a).running = s.running := by
  unfold State.afterRead; split <;> simp [poll_fields]
@[simp] theorem afterRead_status (s : State) (a : Word) : (s.afterRead a).status = s.status := by
  unfold State.afterRead; split <;> simp [poll_fields]
@[simp] theorem afterRead_outq (s : State) (a : Word) : (s.afterRead a).outq = s.outq := by
  unfold State.afterRead; split <;> simp [poll_fields]
@[simp] theorem afterRead_waiting (s : State) (a : Word) : (s.afterRead a).waiting = s.waiting := by
  unfold State.afterRead; split <;> simp [poll_fields]
@[simp] theorem afterRead_reg (s : State) (a : Word) (q : Reg) : (s.afterRead a).reg q = s.reg q := by
  simp [State.reg]

theorem afterRead_of_ne {s : State} {a : Word} (h : a ≠ Config.kbsr) : s.afterRead a = s := by
  simp [State.afterRead, h]

theorem afterRead_kbsr (s : State) : s.afterRead Config.kbsr = s.poll := by simp [State.afterRead]

theorem afterRead_peek_other (s : State) (c : Word) {a : Word} (h1 : a ≠ Config.kbsr) (h2 : a ≠ Config.kbdr) :
    (s.afterRead c).peek a = s.peek a := by
  unfold State.afterRead; split
  · exact poll_peek_other s h1 h2
  · rfl

/-- A read consumes at most the head of the input queue. -/
theorem afterRead_inq (s : State) (a : Word) : (s.afterRead a).inq = s.inq ∨ ∃ b, s.inq = b :: (s.afterRead a).inq := by
  unfold State.afterRead State.poll
  split
  · split
    · left; simp
    · right; rename_i b rest h; exact ⟨b, by simp [h]⟩
  · exact .inl rfl

theorem wf_afterRead {s : State} (h : Memory.wf s.mem) (a : Word) : Memory.wf (s.afterRead a).mem := by
  unfold State.afterRead; split
  · exact wf_poll h
  · exact h

@[simp] theorem memRead_fst (a : Word) (s : State) : (memRead a s).1 = (s.afterRead a).peek a := rfl
@[simp] theorem memRead_snd (a : Word) (s : State) : (memRead a s).2 = s.afterRead a := rfl

/-! ### The string walk (44_trap R143, R145) -/

/-- A walk answers the bytes of the cells before the first zero cell. -/
theorem walkString_of_zero_at (m : Memory) (bytesOf : Word → List Byte) (n fuel : Nat) (a : Word) (hn : n < fuel)
    (hz : cellRead m (a + BitVec.ofNat 16 n).toNat = 0#16)
    (hnz : ∀ k < n, cellRead m (a + BitVec.ofNat 16 k).toNat ≠ 0#16) :
    walkString m bytesOf fuel a =
      some ((List.range n).flatMap fun k => bytesOf (cellRead m (a + BitVec.ofNat 16 k).toNat)) := by
  induction n generalizing fuel a with
  | zero =>
    obtain ⟨fuel, rfl⟩ : ∃ f, fuel = f + 1 := ⟨fuel - 1, by omega⟩
    have hz' : cellRead m a.toNat = 0#16 := by simpa using hz
    simp [walkString, hz']
  | succ n ih =>
    obtain ⟨fuel, rfl⟩ : ∃ f, fuel = f + 1 := ⟨fuel - 1, by omega⟩
    have shift : ∀ k, a + 1#16 + BitVec.ofNat 16 k = a + BitVec.ofNat 16 (k + 1) := fun k => by
      rw [BitVec.add_assoc, Nat.add_comm k 1, BitVec.ofNat_add]
    have h0 : cellRead m a.toNat ≠ 0#16 := by simpa using hnz 0 (by omega)
    have hw := ih fuel (a + 1#16) (by omega) (by rw [shift]; exact hz)
      (fun k hk => by rw [shift]; exact hnz (k + 1) (by omega))
    simp only [shift] at hw
    have hz0 : a + BitVec.ofNat 16 0 = a := by simp
    simp only [walkString, h0, hw, List.range_succ_eq_map, List.flatMap_cons, List.flatMap_map, hz0]
    rfl

/-- A walk that meets no zero cell in `fuel` cells answers nothing. -/
theorem walkString_of_no_zero (m : Memory) (bytesOf : Word → List Byte) (fuel : Nat) (a : Word)
    (h : ∀ k < fuel, cellRead m (a + BitVec.ofNat 16 k).toNat ≠ 0#16) : walkString m bytesOf fuel a = none := by
  induction fuel generalizing a with
  | zero => rfl
  | succ fuel ih =>
    have h0 : cellRead m a.toNat ≠ 0#16 := by simpa using h 0 (by omega)
    have hw := ih (a + 1#16) fun k hk => by
      rw [BitVec.add_assoc, ← BitVec.ofNat_add, Nat.add_comm 1 k]; exact h (k + 1) (by omega)
    simp [walkString, h0, hw]

/-- A string service writes to the output and nothing else, or never ends. -/
theorem writeString_cases (bytesOf : Word → List Byte) (s : State) :
    (∃ bs, writeString bytesOf s = .next (s.outWrite bs)) ∨ writeString bytesOf s = .fault .stringNeverEnds := by
  unfold writeString; split
  · exact .inl ⟨_, rfl⟩
  · exact .inr rfl

/-! ### Loading (70_reset R193) -/

theorem loadWords_fields (ws : List Word) (a : Word) (s : State) :
    loadWords ws a s = { s with mem := (loadWords ws a s).mem } := by
  induction ws generalizing a s with
  | nil => rfl
  | cons w rest ih => rw [loadWords, ih]; rfl

/-- The words loaded from `a` on are the cells from `a` on; every other cell keeps its content. -/
theorem loadWords_peek (ws : List Word) (a : Nat) (s : State) (h : a + ws.length ≤ 65536) :
    (∀ (k : Nat) (hk : k < ws.length), (loadWords ws (BitVec.ofNat 16 a) s).peek (BitVec.ofNat 16 (a + k)) = ws[k]) ∧
      (∀ c : Word, c.toNat < a ∨ a + ws.length ≤ c.toNat → (loadWords ws (BitVec.ofNat 16 a) s).peek c = s.peek c) := by
  induction ws generalizing a s with
  | nil => exact ⟨fun k hk => absurd hk (Nat.not_lt_zero k), fun c _ => rfl⟩
  | cons w ws ih =>
    simp only [List.length_cons] at h
    have next : BitVec.ofNat 16 a + 1#16 = BitVec.ofNat 16 (a + 1) := by rw [BitVec.ofNat_add]
    obtain ⟨inside, outside⟩ := ih (a + 1) (s.poke (BitVec.ofNat 16 a) w) (by omega)
    simp only [loadWords, next]
    refine ⟨fun k hk => ?_, fun c hc => ?_⟩
    · cases k with
      | zero => rw [outside _ (by left; simp; omega)]; simp
      | succ k => rw [show a + (k + 1) = a + 1 + k by omega, inside k (by simpa using hk)]; rfl
    · simp only [List.length_cons] at hc
      rw [outside c (by omega), State.poke_peek_other]
      rintro rfl
      simp at hc; omega

theorem imageWord_toNat (hi lo : Byte) : (imageWord hi lo).toNat = hi.toNat * 256 + lo.toNat := by
  rw [imageWord, BitVec.toNat_append, ← Nat.shiftLeft_add_eq_or_of_lt lo.isLt, Nat.shiftLeft_eq]

/-- An image of an even number of bytes is that many big-endian words. -/
theorem imageWords_of_even (n : Nat) (image : List Byte) (h : image.length = 2 * n) :
    ∃ ws, imageWords image = some ws ∧ ws.length = n ∧ ∀ (k : Nat) (hk : k < ws.length),
      (ws[k]).toNat = (image.getD (2 * k) 0#8).toNat * 256 + (image.getD (2 * k + 1) 0#8).toNat := by
  induction n generalizing image with
  | zero =>
    cases image with
    | nil => exact ⟨[], rfl, rfl, fun k hk => absurd hk (Nat.not_lt_zero k)⟩
    | cons => simp at h
  | succ n ih =>
    match image, h with
    | hi :: lo :: rest, h =>
      obtain ⟨ws, hws, hlen, hget⟩ := ih rest (by simp at h; omega)
      refine ⟨imageWord hi lo :: ws, by simp [imageWords, hws], by simp [hlen], fun k hk => ?_⟩
      cases k with
      | zero => exact imageWord_toNat hi lo
      | succ k =>
        simp only [List.getElem_cons_succ, hget k (by simpa using hk)]
        rw [show 2 * (k + 1) = 2 * k + 1 + 1 by omega]; simp

/-- An image of an odd number of bytes is no sequence of words. -/
theorem imageWords_of_odd (n : Nat) (image : List Byte) (h : image.length = 2 * n + 1) : imageWords image = none := by
  induction n generalizing image with
  | zero => match image, h with | [_], _ => rfl
  | succ n ih => match image, h with | _ :: _ :: rest, h => simp [imageWords, ih rest (by simp at h; omega)]

theorem wf_loadWords (ws : List Word) (a : Word) {s : State} (h : Memory.wf s.mem) :
    Memory.wf (loadWords ws a s).mem := by
  induction ws generalizing a s with
  | nil => exact h
  | cons w rest ih => exact ih (a + 1#16) (wf_poke h a w)

/-- A load that succeeds writes some words to consecutive cells. -/
theorem loadImage_eq {image : List Byte} {s t : State} (h : loadImage image s = .ok t) :
    ∃ ws a, t = loadWords ws a s := by
  unfold loadImage at h
  split at h
  · cases h
  split at h
  · cases h
  · cases h
  split at h
  · cases h; exact ⟨_, _, rfl⟩
  · cases h

/-- Loading changes memory only, and keeps its canonical form. -/
theorem loadImages_ok {images : List (List Byte)} {s t : State} (h : loadImages images s = .ok t) :
    t = { s with mem := t.mem } ∧ (Memory.wf s.mem → Memory.wf t.mem) := by
  induction images generalizing s with
  | nil => cases h; exact ⟨rfl, id⟩
  | cons image rest ih =>
    unfold loadImages at h
    split at h
    · rename_i u hu
      obtain ⟨ws, a, rfl⟩ := loadImage_eq hu
      obtain ⟨e, f⟩ := ih h
      exact ⟨by rw [e, loadWords_fields], fun hw => f (wf_loadWords ws a hw)⟩
    · cases h

end Sys2Proof.Machine
end

