-- ==== Sys2Proof/Laws/Step.lean ====
section
/-! SUPPORT. What a fetch, an input read and a step can do, each said once. -/

namespace Sys2Proof.Machine

/-! ### Fetch -/

@[simp] theorem fetch_pc (s : State) : (fetch s).2.pc = s.pc + 1#16 := rfl
@[simp] theorem fetch_word (s : State) : (fetch s).1 = (s.afterRead s.pc).peek s.pc := rfl
@[simp] theorem fetch_reg (s : State) (q : Reg) : (fetch s).2.reg q = s.reg q := by simp [fetch]
@[simp] theorem fetch_cond (s : State) : (fetch s).2.cond = s.cond := by simp [fetch]
@[simp] theorem fetch_running (s : State) : (fetch s).2.running = s.running := by simp [fetch]
@[simp] theorem fetch_status (s : State) : (fetch s).2.status = s.status := by simp [fetch]
@[simp] theorem fetch_outq (s : State) : (fetch s).2.outq = s.outq := by simp [fetch]
@[simp] theorem fetch_waiting (s : State) : (fetch s).2.waiting = s.waiting := by simp [fetch]
@[simp] theorem fetch_inq (s : State) : (fetch s).2.inq = (s.afterRead s.pc).inq := by simp [fetch]
@[simp] theorem fetch_mem (s : State) : (fetch s).2.mem = (s.afterRead s.pc).mem := by simp [fetch]

/-! ### InRead -/

theorem readInput_of_empty (w : InputWait) {s : State} (h : s.inq = []) :
    readInput w s = { s with waiting := some w } := by
  simp [readInput, h]

theorem readInput_of_byte (w : InputWait) {s : State} {b : Byte} {rest : List Byte} (h : s.inq = b :: rest) :
    readInput w s = acceptByte w b { s with inq := rest, waiting := none } := by
  simp [readInput, h]

/-- Accepting a byte writes R0, COND and, for IN, the output. -/
theorem acceptByte_fields (w : InputWait) (b : Byte) (s : State) :
    (acceptByte w b s).reg 0 = zext8 b ∧ (∀ q, q ≠ 0 → (acceptByte w b s).reg q = s.reg q) ∧
      (acceptByte w b s).cond = condOf (zext8 b) ∧ (acceptByte w b s).pc = s.pc ∧ (acceptByte w b s).mem = s.mem ∧
      (acceptByte w b s).inq = s.inq ∧ (acceptByte w b s).running = s.running ∧
      (acceptByte w b s).status = s.status ∧ (acceptByte w b s).waiting = s.waiting ∧
      (acceptByte w b s).outq = s.outq ++ (match w with | .getc => [] | .inp => [b]) := by
  cases w <;> simp +contextual [acceptByte]

/-! ### Step -/

theorem enabled_iff (s : State) : s.enabled = true ↔ s.running = true ∧ s.status = .running := by
  simp [State.enabled]

/-- The one inversion of a step that answers a next state. -/
theorem step_next {s t : State} (h : step s = .next t) :
    s.enabled = true ∧
      ((∃ w b rest, s.waiting = some w ∧ s.inq = b :: rest ∧
          t = acceptByte w b { s with inq := rest, waiting := none }) ∨
        (s.waiting = none ∧ exec (decode (fetch s).1) (fetch s).2 = .next t)) := by
  unfold step at h
  split at h
  · refine ⟨‹_›, ?_⟩
    split at h
    · rename_i w hw
      unfold resumeInput at h
      split at h
      · cases h
      · rename_i b rest hq
        rw [readInput_of_byte w hq] at h
        exact .inl ⟨w, b, rest, hw, hq, (Host.Outcome.next.inj h).symm⟩
    · exact .inr ⟨‹_›, h⟩
  · cases h

theorem step_of_not_enabled {s : State} (h : s.enabled = false) : step s = .fault .runEnded := by
  simp [step, h]

theorem step_of_enabled {s : State} (h : s.enabled = true) (hw : s.waiting = none) :
    step s = exec (decode (fetch s).1) (fetch s).2 := by
  simp [step, h, hw]

theorem step_of_waiting {s : State} (h : s.enabled = true) {w : InputWait} (hw : s.waiting = some w) :
    step s = resumeInput w s := by
  simp [step, h, hw]

end Sys2Proof.Machine
end

