-- ==== Sys2Proof/Laws/Exec.lean ====
section
/-! SUPPORT. What executing an instruction can do, said once for TRAP and its services and once for all the others: the
lemmas that claims about every instruction cite instead of unfolding each meaning. -/

namespace Sys2Proof.Machine

theorem eq_of_next {s t : State} (h : (.next s : Host.Outcome State Fault Refusal) = .next t) : t = s := by
  cases h; rfl

/-! ### Input and strings -/

/-- `InRead()` inside GETC or IN touches R0, COND, the queues and the wait, nothing else, and no output is lost. -/
theorem readInput_frame (w : InputWait) (u : State) :
    (readInput w u).pc = u.pc ∧ (readInput w u).mem = u.mem ∧ (∀ q, q ≠ 0 → (readInput w u).reg q = u.reg q) ∧
      (readInput w u).running = u.running ∧ (readInput w u).status = u.status ∧ u.outq <+: (readInput w u).outq ∧
      (readInput w u).inq <:+ u.inq := by
  cases hq : u.inq with
  | nil =>
    rw [readInput_of_empty w hq]
    exact ⟨rfl, rfl, fun _ _ => rfl, rfl, rfl, List.prefix_rfl, by rw [← hq]⟩
  | cons b rest =>
    rw [readInput_of_byte w hq]
    obtain ⟨_, hreg, _, hpc, hmem, hinq, hrun, hst, _, hout⟩ := acceptByte_fields w b { u with inq := rest, waiting := none }
    exact ⟨hpc, hmem, hreg, hrun, hst, by rw [hout]; exact List.prefix_append _ _, by rw [hinq]; exact List.suffix_cons b rest⟩

/-- `InRead()` ends waiting only with an empty queue, and then has changed nothing but the wait. -/
theorem readInput_waits {w : InputWait} {u : State} (h : (readInput w u).waiting ≠ none) :
    u.inq = [] ∧ readInput w u = { u with waiting := some w } := by
  cases hq : u.inq with
  | nil => exact ⟨rfl, (readInput_of_empty w hq).trans (by rw [hq])⟩
  | cons b rest =>
    rw [readInput_of_byte w hq] at h
    exact absurd (acceptByte_fields w b { u with inq := rest, waiting := none }).2.2.2.2.2.2.2.2.1 h

theorem writeString_next {bytesOf : Word → List Byte} {s t : State} (h : writeString bytesOf s = .next t) :
    ∃ bs, t = s.outWrite bs := by
  rcases writeString_cases bytesOf s with ⟨bs, e⟩ | e <;> rw [e] at h <;> cases h
  exact ⟨bs, rfl⟩

/-- A string service ends its walk, or no cell of the memory is zero. -/
theorem writeString_ends (bytesOf : Word → List Byte) (s : State) :
    (∃ t, writeString bytesOf s = .next t) ∨
      (writeString bytesOf s = .fault .stringNeverEnds ∧ ∀ a, s.peek a ≠ 0#16) := by
  by_cases hz : ∃ n, n < 65536 ∧ s.peek (s.reg 0 + BitVec.ofNat 16 n) = 0#16
  · obtain ⟨hn, hzero⟩ := Nat.find_spec hz
    rw [writeString, walkString_of_zero_at s.mem bytesOf (Nat.find hz) Config.memorySize (s.reg 0) hn hzero
      fun k hk hk0 => Nat.find_min hz hk ⟨Nat.lt_trans hk hn, hk0⟩]
    exact .inl ⟨_, rfl⟩
  · refine .inr ⟨?_, fun a ha => hz ⟨(a - s.reg 0).toNat, (a - s.reg 0).isLt, by
      rw [BitVec.ofNat_toNat, BitVec.setWidth_eq, BitVec.add_comm, BitVec.sub_add_cancel]; exact ha⟩⟩
    rw [writeString, walkString_of_no_zero s.mem bytesOf Config.memorySize (s.reg 0) fun k hk hk0 => hz ⟨k, hk, hk0⟩]

/-! ### TRAP -/

theorem lowByte_trapWord (x : BitVec 4) (v : Byte) : lowByte (trapWord x v) = v := by
  refine BitVec.eq_of_getLsbD_eq fun i hi => ?_
  simp only [lowByte, trapWord, BitVec.getLsbD_extractLsb', BitVec.getLsbD_append]
  interval_cases i <;> simp

theorem opcodeField_trapWord (x : BitVec 4) (v : Byte) : opcodeField (trapWord x v) = 0xF#4 := by
  refine BitVec.eq_of_getLsbD_eq fun i hi => ?_
  simp only [opcodeField, trapWord, BitVec.getLsbD_extractLsb', BitVec.getLsbD_append]
  interval_cases i <;> simp

/-- TRAP is one of its services, by its vector, or the fatal condition. -/
theorem exec_trap_cases (x : BitVec 4) (v : Byte) (s : State) :
    (v = 0x20#8 ∧ exec (.trap x v) s = exec .getc s) ∨ (v = 0x21#8 ∧ exec (.trap x v) s = exec .out s) ∨
    (v = 0x22#8 ∧ exec (.trap x v) s = exec .puts s) ∨ (v = 0x23#8 ∧ exec (.trap x v) s = exec .inp s) ∨
    (v = 0x24#8 ∧ exec (.trap x v) s = exec .putsp s) ∨ (v = 0x25#8 ∧ exec (.trap x v) s = exec .halt s) ∨
    (isServiceVector v = false ∧
      exec (.trap x v) s =
        .next (raiseFatal (.unknownTrapVector v (trapWord x v) (s.pc - 1#16)) (trapEntry s))) := by
  by_cases h0 : v = 0x20#8; · subst h0; exact .inl ⟨rfl, rfl⟩
  by_cases h1 : v = 0x21#8; · subst h1; exact .inr (.inl ⟨rfl, rfl⟩)
  by_cases h2 : v = 0x22#8; · subst h2; exact .inr (.inr (.inl ⟨rfl, rfl⟩))
  by_cases h3 : v = 0x23#8; · subst h3; exact .inr (.inr (.inr (.inl ⟨rfl, rfl⟩)))
  by_cases h4 : v = 0x24#8; · subst h4; exact .inr (.inr (.inr (.inr (.inl ⟨rfl, rfl⟩))))
  by_cases h5 : v = 0x25#8; · subst h5; exact .inr (.inr (.inr (.inr (.inr (.inl ⟨rfl, rfl⟩)))))
  refine .inr (.inr (.inr (.inr (.inr (.inr ⟨?_, ?_⟩)))))
  · simp only [← BitVec.toNat_inj, isServiceVector, BitVec.toNat_ofNat, Bool.and_eq_false_imp, decide_eq_true_eq,
      decide_eq_false_iff_not] at *
    omega
  · simp [exec, execTrap, h0, h1, h2, h3, h4, h5, State.instrAddress]

/-- How the run stands after a TRAP instruction: as before, halted by HALT, or ended by an unknown vector. -/
def TrapRun (i : Instr) (s t : State) : Prop :=
  (t.running = s.running ∧ t.status = s.status) ∨
  (t.running = false ∧ t.status = .halted ∧ t.waiting = s.waiting ∧ (i = .halt ∨ ∃ x, i = .trap x 0x25#8)) ∨
  (t.running = s.running ∧ t.waiting = s.waiting ∧ ∃ x v, i = .trap x v ∧ isServiceVector v = false ∧
    t.status = .fatal (.unknownTrapVector v (trapWord x v) (s.pc - 1#16)))

/-- What TRAP and its services can do: R7 is the return address, only R0 besides may change, PC and memory stay, the
output grows, the input shrinks from its head. -/
theorem exec_trap_frame {i : Instr} {s t : State} (hi : i.isTrap = true) (h : exec i s = .next t) :
    t.pc = s.pc ∧ t.mem = s.mem ∧ (∀ q, q ≠ 0 → t.reg q = (trapEntry s).reg q) ∧ s.outq <+: t.outq ∧
      t.inq <:+ s.inq ∧ TrapRun i s t := by
  have ofOutput : ∀ bs, ((trapEntry s).outWrite bs).pc = s.pc ∧ ((trapEntry s).outWrite bs).mem = s.mem ∧
      (∀ q, q ≠ 0 → ((trapEntry s).outWrite bs).reg q = (trapEntry s).reg q) ∧ s.outq <+: ((trapEntry s).outWrite bs).outq ∧
      ((trapEntry s).outWrite bs).inq <:+ s.inq ∧ ((trapEntry s).outWrite bs).running = s.running ∧
      ((trapEntry s).outWrite bs).status = s.status :=
    fun bs => ⟨rfl, rfl, fun _ _ => rfl, List.prefix_append _ _, List.suffix_rfl, rfl, rfl⟩
  have service : ∀ j : Instr, j = .getc ∨ j = .out ∨ j = .puts ∨ j = .inp ∨ j = .putsp → exec j s = .next t →
      t.pc = s.pc ∧ t.mem = s.mem ∧ (∀ q, q ≠ 0 → t.reg q = (trapEntry s).reg q) ∧ s.outq <+: t.outq ∧
        t.inq <:+ s.inq ∧ t.running = s.running ∧ t.status = s.status := by
    rintro j (rfl | rfl | rfl | rfl | rfl) h
    · cases eq_of_next h
      obtain ⟨hpc, hmem, hreg, hrun, hst, hout, hinq⟩ := readInput_frame .getc (trapEntry s)
      exact ⟨hpc, hmem, hreg, hout, hinq, hrun, hst⟩
    · cases eq_of_next h; exact ofOutput _
    · obtain ⟨bs, rfl⟩ := writeString_next h; exact ofOutput bs
    · cases eq_of_next h
      obtain ⟨hpc, hmem, hreg, hrun, hst, hout, hinq⟩ := readInput_frame .inp ((trapEntry s).outWrite Config.inPrompt)
      exact ⟨hpc, hmem, hreg, (List.prefix_append _ _).trans hout, hinq, hrun, hst⟩
    · obtain ⟨bs, rfl⟩ := writeString_next h; exact ofOutput bs
  have goesOn : ∀ j : Instr, j = .getc ∨ j = .out ∨ j = .puts ∨ j = .inp ∨ j = .putsp → exec j s = .next t →
      t.pc = s.pc ∧ t.mem = s.mem ∧ (∀ q, q ≠ 0 → t.reg q = (trapEntry s).reg q) ∧ s.outq <+: t.outq ∧
        t.inq <:+ s.inq ∧ TrapRun i s t := fun j hj h =>
    let ⟨hpc, hmem, hreg, hout, hinq, hrun⟩ := service j hj h
    ⟨hpc, hmem, hreg, hout, hinq, .inl hrun⟩
  have halts : (i = .halt ∨ ∃ x, i = .trap x 0x25#8) → exec .halt s = .next t →
      t.pc = s.pc ∧ t.mem = s.mem ∧ (∀ q, q ≠ 0 → t.reg q = (trapEntry s).reg q) ∧ s.outq <+: t.outq ∧
        t.inq <:+ s.inq ∧ TrapRun i s t := fun hj h => by
    cases eq_of_next h
    exact ⟨rfl, rfl, fun _ _ => rfl, List.prefix_append _ _, List.suffix_rfl, .inr (.inl ⟨rfl, rfl, rfl, hj⟩)⟩
  cases i with
  | getc => exact goesOn _ (by simp) h
  | out => exact goesOn _ (by simp) h
  | puts => exact goesOn _ (by simp) h
  | inp => exact goesOn _ (by simp) h
  | putsp => exact goesOn _ (by simp) h
  | halt => exact halts (.inl rfl) h
  | trap x v =>
    rcases exec_trap_cases x v s with ⟨rfl, e⟩ | ⟨rfl, e⟩ | ⟨rfl, e⟩ | ⟨rfl, e⟩ | ⟨rfl, e⟩ | ⟨rfl, e⟩ | ⟨hv, e⟩
    · exact goesOn .getc (by simp) (e ▸ h)
    · exact goesOn .out (by simp) (e ▸ h)
    · exact goesOn .puts (by simp) (e ▸ h)
    · exact goesOn .inp (by simp) (e ▸ h)
    · exact goesOn .putsp (by simp) (e ▸ h)
    · exact halts (.inr ⟨x, rfl⟩) (e ▸ h)
    · rw [e] at h; cases eq_of_next h
      exact ⟨rfl, rfl, fun _ _ => rfl, List.prefix_rfl, List.suffix_rfl, .inr (.inr ⟨rfl, rfl, x, v, rfl, hv, rfl⟩)⟩
  | _ => cases hi

/-! ### The other instructions -/

theorem afterRead_inq_suffix (u : State) (a : Word) : (u.afterRead a).inq <:+ u.inq := by
  rcases afterRead_inq u a with e | ⟨b, e⟩
  · rw [e]
  · exact e ▸ List.suffix_cons b _

/-- How the run stands after an instruction that is no TRAP: as before, or ended by a reserved opcode. -/
def PlainRun (i : Instr) (s t : State) : Prop :=
  t.status = s.status ∨
  (∃ x, i = .rti x ∧ t.status = .fatal (.reservedOpcode 0b1000#4 (0b1000#4 ++ x) (s.pc - 1#16)) ∧ t.pc = s.pc) ∨
  (∃ x, i = .res x ∧ t.status = .fatal (.reservedOpcode 0b1101#4 (0b1101#4 ++ x) (s.pc - 1#16)) ∧ t.pc = s.pc)

/-- What an instruction that is no TRAP can do: no output, input taken only from the head, the run flag and the wait
left alone, the canonical memory kept. -/
theorem exec_plain_frame {i : Instr} {s t : State} (hi : i.isTrap = false) (h : exec i s = .next t) :
    t.outq = s.outq ∧ t.inq <:+ s.inq ∧ t.running = s.running ∧ t.waiting = s.waiting ∧
      (Memory.wf s.mem → Memory.wf t.mem) ∧ PlainRun i s t := by
  cases i with
  | getc | out | puts | inp | putsp | halt | trap => cases hi
  | br nzp off9 =>
    have e : t = if branchTaken nzp s.cond then s.setPc (s.pcRelative off9) else s := eq_of_next h
    split at e <;> subst e <;> exact ⟨rfl, List.suffix_rfl, rfl, rfl, id, .inl rfl⟩
  | rti x => cases eq_of_next h; exact ⟨rfl, List.suffix_rfl, rfl, rfl, id, .inr (.inl ⟨x, rfl, rfl, rfl⟩)⟩
  | res x => cases eq_of_next h; exact ⟨rfl, List.suffix_rfl, rfl, rfl, id, .inr (.inr ⟨x, rfl, rfl, rfl⟩)⟩
  | st | str => cases eq_of_next h; exact ⟨rfl, List.suffix_rfl, rfl, rfl, fun hw => wf_memWrite hw _ _, .inl rfl⟩
  | sti =>
    cases eq_of_next h
    exact ⟨by simp, afterRead_inq_suffix _ _, by simp, by simp, fun hw => wf_memWrite (wf_afterRead hw _) _ _,
      .inl (by simp)⟩
  | ld | ldr =>
    cases eq_of_next h
    exact ⟨by simp [loadFrom], afterRead_inq_suffix _ _, by simp [loadFrom], by simp [loadFrom],
      fun hw => wf_afterRead hw _, .inl (by simp [loadFrom])⟩
  | ldi =>
    cases eq_of_next h
    exact ⟨by simp [loadFrom], (afterRead_inq_suffix _ _).trans (afterRead_inq_suffix _ _), by simp [loadFrom],
      by simp [loadFrom], fun hw => wf_afterRead (wf_afterRead hw _) _, .inl (by simp [loadFrom])⟩
  | _ => cases eq_of_next h; exact ⟨rfl, List.suffix_rfl, rfl, rfl, id, .inl rfl⟩

/-- An instruction answers a next state, or it walks a string in a memory without a zero cell. -/
theorem exec_ends (i : Instr) (s : State) :
    (∃ t, exec i s = .next t) ∨
      (exec i s = .fault .stringNeverEnds ∧ i.walksString = true ∧ ∀ a, s.peek a ≠ 0#16) := by
  have walk (f : Word → List Byte) := writeString_ends f (trapEntry s)
  cases i with
  | puts => exact (walk putsBytes).imp id fun h => ⟨h.1, rfl, h.2⟩
  | putsp => exact (walk putspBytes).imp id fun h => ⟨h.1, rfl, h.2⟩
  | trap x v =>
    rcases exec_trap_cases x v s with ⟨rfl, e⟩ | ⟨rfl, e⟩ | ⟨rfl, e⟩ | ⟨rfl, e⟩ | ⟨rfl, e⟩ | ⟨rfl, e⟩ | ⟨_, e⟩ <;> rw [e]
    · exact .inl ⟨_, rfl⟩
    · exact .inl ⟨_, rfl⟩
    · exact (walk putsBytes).imp id fun h => ⟨h.1, rfl, h.2⟩
    · exact .inl ⟨_, rfl⟩
    · exact (walk putspBytes).imp id fun h => ⟨h.1, rfl, h.2⟩
    · exact .inl ⟨_, rfl⟩
    · exact .inl ⟨_, rfl⟩
  | _ => exact .inl ⟨_, rfl⟩

end Sys2Proof.Machine
end

