-- ==== Sys2Proof/Laws/Flags.lean ====
section
/-! SUPPORT. The flag rule and the branch test (40_alu R100, 41_control R110). -/

namespace Sys2Proof.Machine

theorem condOf_zero : condOf 0#16 = .zero := rfl

theorem condOf_neg {v : Word} (h : v.getLsbD 15 = true) : condOf v = .neg := by
  have hv : v ≠ 0#16 := by rintro rfl; simp at h
  simp [condOf, hv, h]

theorem condOf_pos {v : Word} (hv : v ≠ 0#16) (h : v.getLsbD 15 = false) : condOf v = .pos := by
  rw [condOf, if_neg hv, h]; rfl

/-- The flag matches the sign of the value read as two's complement. -/
theorem condOf_toInt (v : Word) :
    (v.toInt = 0 → condOf v = .zero) ∧ (v.toInt < 0 → condOf v = .neg) ∧ (0 < v.toInt → condOf v = .pos) := by
  have hmsb : v.getLsbD 15 = v.msb := by simp [BitVec.msb, BitVec.getMsbD]
  refine ⟨fun h => ?_, fun h => ?_, fun h => ?_⟩
  · have : v = 0#16 := BitVec.eq_of_toInt_eq (by simpa using h)
    rw [this]; rfl
  · exact condOf_neg (by rw [hmsb, BitVec.msb_eq_toInt]; simpa using h)
  · refine condOf_pos (by rintro rfl; simp at h) ?_
    rw [hmsb, BitVec.msb_eq_toInt]; simpa using Int.le_of_lt h

/-- BR's mask selects NEGATIVE by its bit 2 (n), ZERO by bit 1 (z), POSITIVE by bit 0 (p) (30_encoding R64). -/
theorem branchTaken_eq (nzp : BitVec 3) (c : Cond) :
    branchTaken nzp c = match c with
      | .neg => nzp.getLsbD 2
      | .zero => nzp.getLsbD 1
      | .pos => nzp.getLsbD 0 := by
  revert nzp; cases c <;> decide

end Sys2Proof.Machine
end

