-- ==== Sys2Proof/Laws/Operands.lean ====
section
/-! SUPPORT. What a sign-extended operand is worth: as a signed number, and in an address sum modulo 65536. -/

namespace Sys2Proof.Machine

theorem sext_toInt {n : Nat} (h : n ≤ 16) (f : BitVec n) : (sext f).toInt = f.toInt :=
  BitVec.toInt_signExtend_of_le h

/-- A word plus a sign-extended field, as numbers: the signed sum modulo 65536 (20_memory R41). -/
theorem add_sext_toNat {n : Nat} (h : n ≤ 16) (p : Word) (f : BitVec n) :
    ((p + sext f).toNat : Int) = (p.toNat + f.toInt) % 65536 := by
  rw [← sext_toInt h f, BitVec.toNat_add, BitVec.toInt_eq_toNat_cond]
  split <;> omega

/-- The address an offset resolves to is the one word whose number is the signed sum modulo 65536. -/
theorem eq_add_sext {n : Nat} (h : n ≤ 16) {p ea : Word} {f : BitVec n}
    (e : (ea.toNat : Int) = (p.toNat + f.toInt) % 65536) : ea = p + sext f := by
  have hsum := add_sext_toNat h p f
  exact BitVec.eq_of_toNat_eq (by omega)

end Sys2Proof.Machine
end

