-- ==== Sys2Proof/Laws/PerInstr.lean ====
section
/-! SUPPORT. The family MatchesTable: the word of an instruction has the fixed bits of its row of the opcode table. -/

namespace Sys2Proof.Laws.MatchesTable

/-- The encoding of `i` matches the mask and match of its row of opcode_table.json (30_encoding R65, R66). -/
def Statement (i : Instr) : Prop := encode i &&& tableMask i = tableMatch i

/-- Two words agree if their 16 bits do. -/
theorem eq_of_bits {v w : Word} (h : ∀ i : Fin 16, v.getLsbD i = w.getLsbD i) : v = w :=
  BitVec.eq_of_getLsbD_eq fun i hi => h ⟨i, hi⟩

theorem addReg (dr sr1 sr2 : Reg) : Statement (.addReg dr sr1 sr2) := by
  refine eq_of_bits fun i => ?_
  fin_cases i <;> simp only [encode, tableMask, tableMatch, BitVec.getLsbD_and, BitVec.getLsbD_append] <;> simp

theorem addImm (dr sr1 : Reg) (imm5 : BitVec 5) : Statement (.addImm dr sr1 imm5) := by
  refine eq_of_bits fun i => ?_
  fin_cases i <;> simp only [encode, tableMask, tableMatch, BitVec.getLsbD_and, BitVec.getLsbD_append] <;> simp

theorem andReg (dr sr1 sr2 : Reg) : Statement (.andReg dr sr1 sr2) := by
  refine eq_of_bits fun i => ?_
  fin_cases i <;> simp only [encode, tableMask, tableMatch, BitVec.getLsbD_and, BitVec.getLsbD_append] <;> simp

theorem andImm (dr sr1 : Reg) (imm5 : BitVec 5) : Statement (.andImm dr sr1 imm5) := by
  refine eq_of_bits fun i => ?_
  fin_cases i <;> simp only [encode, tableMask, tableMatch, BitVec.getLsbD_and, BitVec.getLsbD_append] <;> simp

theorem notReg (dr sr : Reg) : Statement (.notReg dr sr) := by
  refine eq_of_bits fun i => ?_
  fin_cases i <;> simp only [encode, tableMask, tableMatch, BitVec.getLsbD_and, BitVec.getLsbD_append] <;> simp

theorem br (nzp : BitVec 3) (off9 : BitVec 9) : Statement (.br nzp off9) := by
  refine eq_of_bits fun i => ?_
  fin_cases i <;> simp only [encode, tableMask, tableMatch, BitVec.getLsbD_and, BitVec.getLsbD_append] <;> simp

theorem jmp (baseR : Reg) : Statement (.jmp baseR) := by
  refine eq_of_bits fun i => ?_
  fin_cases i <;> simp only [encode, tableMask, tableMatch, BitVec.getLsbD_and, BitVec.getLsbD_append] <;> simp

theorem jsr (off11 : BitVec 11) : Statement (.jsr off11) := by
  refine eq_of_bits fun i => ?_
  fin_cases i <;> simp only [encode, tableMask, tableMatch, BitVec.getLsbD_and, BitVec.getLsbD_append] <;> simp

theorem jsrr (baseR : Reg) : Statement (.jsrr baseR) := by
  refine eq_of_bits fun i => ?_
  fin_cases i <;> simp only [encode, tableMask, tableMatch, BitVec.getLsbD_and, BitVec.getLsbD_append] <;> simp

theorem ld (dr : Reg) (off9 : BitVec 9) : Statement (.ld dr off9) := by
  refine eq_of_bits fun i => ?_
  fin_cases i <;> simp only [encode, tableMask, tableMatch, BitVec.getLsbD_and, BitVec.getLsbD_append] <;> simp

theorem ldi (dr : Reg) (off9 : BitVec 9) : Statement (.ldi dr off9) := by
  refine eq_of_bits fun i => ?_
  fin_cases i <;> simp only [encode, tableMask, tableMatch, BitVec.getLsbD_and, BitVec.getLsbD_append] <;> simp

theorem ldr (dr baseR : Reg) (off6 : BitVec 6) : Statement (.ldr dr baseR off6) := by
  refine eq_of_bits fun i => ?_
  fin_cases i <;> simp only [encode, tableMask, tableMatch, BitVec.getLsbD_and, BitVec.getLsbD_append] <;> simp

theorem lea (dr : Reg) (off9 : BitVec 9) : Statement (.lea dr off9) := by
  refine eq_of_bits fun i => ?_
  fin_cases i <;> simp only [encode, tableMask, tableMatch, BitVec.getLsbD_and, BitVec.getLsbD_append] <;> simp

theorem st (sr : Reg) (off9 : BitVec 9) : Statement (.st sr off9) := by
  refine eq_of_bits fun i => ?_
  fin_cases i <;> simp only [encode, tableMask, tableMatch, BitVec.getLsbD_and, BitVec.getLsbD_append] <;> simp

theorem sti (sr : Reg) (off9 : BitVec 9) : Statement (.sti sr off9) := by
  refine eq_of_bits fun i => ?_
  fin_cases i <;> simp only [encode, tableMask, tableMatch, BitVec.getLsbD_and, BitVec.getLsbD_append] <;> simp

theorem str (sr baseR : Reg) (off6 : BitVec 6) : Statement (.str sr baseR off6) := by
  refine eq_of_bits fun i => ?_
  fin_cases i <;> simp only [encode, tableMask, tableMatch, BitVec.getLsbD_and, BitVec.getLsbD_append] <;> simp

theorem trap (ignored : BitVec 4) (vect8 : Byte) : Statement (.trap ignored vect8) := by
  refine eq_of_bits fun i => ?_
  fin_cases i <;> simp only [encode, tableMask, tableMatch, BitVec.getLsbD_and, BitVec.getLsbD_append] <;> simp

theorem getc : Statement .getc := rfl

theorem out : Statement .out := rfl

theorem puts : Statement .puts := rfl

theorem inp : Statement .inp := rfl

theorem putsp : Statement .putsp := rfl

theorem halt : Statement .halt := rfl

theorem rti (ignored : BitVec 12) : Statement (.rti ignored) := by
  refine eq_of_bits fun i => ?_
  fin_cases i <;> simp only [encode, tableMask, tableMatch, BitVec.getLsbD_and, BitVec.getLsbD_append] <;> simp

theorem res (ignored : BitVec 12) : Statement (.res ignored) := by
  refine eq_of_bits fun i => ?_
  fin_cases i <;> simp only [encode, tableMask, tableMatch, BitVec.getLsbD_and, BitVec.getLsbD_append] <;> simp

end Sys2Proof.Laws.MatchesTable
end

