-- ==== Sys2Proof/Tests/Slice0.lean ====
section
/-! SUPPORT. Tests. The expected results come from the vectors of 95_test_vectors (E, 2.1 to 2.10) and from the formats of
30_encoding R65, not from the model. The witnesses at the end show that the hypotheses of the statements can be met. -/

namespace Sys2Proof.Tests

open Sys2Proof Sys2Proof.Machine Sys2Proof.Claims

/-! ### Helpers -/

/-- The reset state with `w` at 0x3000. -/
def start (w : Word) : State := State.reset.withFetchWord 16 w.toNat

/-- The state after one step (the state itself where there is none). -/
def after (s : State) : State :=
  match step s with
  | .next t => t
  | .fault _ => s
  | .refused _ => s

/-- A step answers a next state. -/
def goes (s : State) : Bool :=
  match step s with
  | .next _ => true
  | .fault _ => false
  | .refused _ => false

/-- The fault a step answers. -/
def faultOf (s : State) : Option Fault :=
  match step s with
  | .next _ => none
  | .fault f => some f
  | .refused _ => none

/-! ### Well-formedness -/

theorem test_wf_refuses_a_service_vector : (Instr.trap 0#4 0x20#8).wf = false ∧ (Instr.trap 5#4 0x25#8).wf = false := by
  decide

theorem test_wf_admits_the_neighbours : (Instr.trap 0#4 0x1F#8).wf = true ∧ (Instr.trap 0#4 0x26#8).wf = true := by decide

/-! ### Decoding: each constructor from a word written out from the formats of R65 -/

theorem test_decode_addReg : decode 0b0001_010_000_0_11_001#16 = .addReg 2 0 1 := by decide
theorem test_decode_addImm : decode 0b0001_001_001_1_11111#16 = .addImm 1 1 0b11111#5 := by decide
theorem test_decode_andReg : decode 0b0101_010_000_0_00_001#16 = .andReg 2 0 1 := by decide
theorem test_decode_andImm : decode 0b0101_011_011_1_10000#16 = .andImm 3 3 0b10000#5 := by decide
theorem test_decode_notReg : decode 0b1001_001_000_000000#16 = .notReg 1 0 := by decide
theorem test_decode_br : decode 0b0000_0_1_0_111111110#16 = .br 0b010#3 0x1FE#9 := by decide
theorem test_decode_jmp : decode 0b1100_111_010_111111#16 = .jmp 2 := by decide
theorem test_decode_jsr : decode 0b0100_1_00000000101#16 = .jsr 5#11 := by decide
theorem test_decode_jsrr : decode 0b0100_0_11_011_000001#16 = .jsrr 3 := by decide
theorem test_decode_ld : decode 0b0010_101_100000010#16 = .ld 5 0x102#9 := by decide
theorem test_decode_ldi : decode 0b1010_001_000000001#16 = .ldi 1 1#9 := by decide
theorem test_decode_ldr : decode 0b0110_010_011_111111#16 = .ldr 2 3 0x3F#6 := by decide
theorem test_decode_lea : decode 0b1110_000_100000000#16 = .lea 0 0x100#9 := by decide
theorem test_decode_st : decode 0b0011_001_111111111#16 = .st 1 0x1FF#9 := by decide
theorem test_decode_sti : decode 0b1011_010_000000001#16 = .sti 2 1#9 := by decide
theorem test_decode_str : decode 0b0111_000_001_000010#16 = .str 0 1 2#6 := by decide
theorem test_decode_trap : decode 0b1111_0011_00100110#16 = .trap 3#4 0x26#8 := by decide
theorem test_decode_getc : decode 0b1111_0000_00100000#16 = .getc := by decide
theorem test_decode_out : decode 0b1111_0000_00100001#16 = .out := by decide
theorem test_decode_puts : decode 0b1111_0001_00100010#16 = .puts := by decide
theorem test_decode_inp : decode 0b1111_0000_00100011#16 = .inp := by decide
theorem test_decode_putsp : decode 0b1111_0000_00100100#16 = .putsp := by decide
theorem test_decode_halt : decode 0b1111_1111_00100101#16 = .halt := by decide
theorem test_decode_rti : decode 0b1000_111111111111#16 = .rti 0xFFF#12 := by decide
theorem test_decode_res : decode 0b1101_000000000000#16 = .res 0#12 := by decide

theorem test_encode_canonical :
    encode (.notReg 0 0) = 0x903F#16 ∧ encode (.jmp 7) = 0xC1C0#16 ∧ encode .halt = 0xF025#16 := by decide

theorem test_decodeTableWord : decodeTableWord 16 0x1025 = some (.addImm 0 0 5#5) ∧ decodeTableWord 16 0x10000 = none := by
  decide

/-! ### Sign extension (95_test_vectors 2.1) -/

theorem test_sext_5_9 : sext 0b10000#5 = 0xFFF0#16 ∧ sext 0b01111#5 = 0x000F#16 ∧ sext 0x100#9 = 0xFF00#16 := by decide
theorem test_sext_6_11 : sext 0b100000#6 = 0xFFE0#16 ∧ sext 0x400#11 = 0xFC00#16 ∧ sext 0x3FF#11 = 0x03FF#16 := by decide

/-! ### ALU (2.3) -/

theorem test_addReg_signed_overflow_wraps :
    let t := after (((start 0x1042#16).setReg 1 0x7FFF#16).setReg 2 0x0001#16)
    t.reg 0 = 0x8000#16 ∧ t.cond = .neg ∧ t.pc = 0x3001#16 := by decide

theorem test_addReg_same_register_thrice :
    let t := after ((start 0x1241#16).setReg 1 0x4000#16)
    t.reg 1 = 0x8000#16 ∧ t.cond = .neg := by decide

theorem test_addImm_minus_sixteen :
    let t := after ((start 0x1030#16).setReg 0 0x0010#16)
    t.reg 0 = 0#16 ∧ t.cond = .zero := by decide

theorem test_addImm_minus_one_of_min :
    let t := after ((start 0x127F#16).setReg 1 0x8000#16)
    t.reg 1 = 0x7FFF#16 ∧ t.cond = .pos := by decide

theorem test_andReg :
    let t := after (((start 0x5042#16).setReg 1 0xFF00#16).setReg 2 0x0FF0#16)
    t.reg 0 = 0x0F00#16 ∧ t.cond = .pos := by decide

theorem test_andImm_mask :
    let t := after ((start 0x5030#16).setReg 0 0x800F#16)
    t.reg 0 = 0x8000#16 ∧ t.cond = .neg := by decide

theorem test_notReg :
    let t := after ((start 0x907F#16).setReg 1 0xFFFF#16)
    t.reg 0 = 0#16 ∧ t.cond = .zero := by decide

/-! ### Control transfer (2.4, 2.5) -/

theorem test_br_taken_and_not :
    (after (setcc 0x8000#16 (start 0x0810#16))).pc = 0x3011#16 ∧ (after (setcc 1#16 (start 0x0C10#16))).pc = 0x3001#16 := by
  decide

theorem test_br_wraps :
    (after ({ State.reset with pc := 0xFF80#16 }.withFetchWord 16 0x0EFF)).pc = 0x0080#16 := by decide

theorem test_jmp : (after ((start 0xCEBF#16).setReg 2 0x1234#16)).pc = 0x1234#16 := by decide

theorem test_jsr_back :
    let t := after (start 0x4C00#16)
    t.reg 7 = 0x3001#16 ∧ t.pc = 0x2C01#16 ∧ t.cond = .zero := by decide

theorem test_jsrr_through_r7 :
    let t := after ((start 0x41C0#16).setReg 7 0x5000#16)
    t.reg 7 = 0x3001#16 ∧ t.pc = 0x3001#16 := by decide

/-! ### Loads and stores (2.6, 2.7) -/

theorem test_ld_reads_itself :
    let t := after (start 0x21FF#16)
    t.reg 0 = 0x21FF#16 ∧ t.cond = .pos := by decide

theorem test_ldr_polls_with_a_byte :
    let t := after { (start 0x6000#16).setReg 0 0xFE00#16 with inq := [0x0D#8, 0x0A#8] }
    t.reg 0 = 0x8000#16 ∧ t.cond = .neg ∧ t.peek 0xFE00#16 = 0x8000#16 ∧ t.peek 0xFE02#16 = 0x000D#16 ∧
      t.inq = [0x0A#8] := by decide

theorem test_ldr_wraps :
    (after (((start 0x6041#16).setReg 1 0xFFFF#16).poke 0#16 0x1111#16)).reg 0 = 0x1111#16 := by decide

theorem test_ldi_pointer_then_data :
    let t := after (((start 0xA201#16).poke 0x3002#16 0x4000#16).poke 0x4000#16 0x1234#16)
    t.reg 1 = 0x1234#16 ∧ t.cond = .pos := by decide

theorem test_ldi_polls_through_the_pointer :
    let t := after { (start 0xA000#16).poke 0x3001#16 0xFE00#16 with inq := [0x61#8] }
    t.reg 0 = 0x8000#16 ∧ t.peek 0xFE02#16 = 0x0061#16 ∧ t.inq = [] := by decide

theorem test_lea :
    let t := after { { State.reset with pc := 0xFDFF#16 }.withFetchWord 16 0xE000 with inq := [0x41#8] }
    t.reg 0 = 0xFE00#16 ∧ t.cond = .neg ∧ t.inq = [0x41#8] := by decide

theorem test_st_over_itself :
    let t := after ((start 0x33FF#16).setReg 1 0xBEEF#16)
    t.peek 0x3000#16 = 0xBEEF#16 ∧ t.cond = .zero := by decide

theorem test_sti_into_kbsr :
    let t := after (((start 0xB001#16).setReg 0 0x1234#16).poke 0x3002#16 0xFE00#16)
    t.peek 0xFE00#16 = 0x1234#16 ∧ t.pc = 0x3001#16 := by decide

theorem test_str_wraps :
    let t := after (((start 0x7060#16).setReg 0 0x5A5A#16).setReg 1 0x0010#16)
    t.peek 0xFFF0#16 = 0x5A5A#16 := by decide

/-! ### TRAP services (2.8) -/

theorem test_getc_upper_byte :
    let t := after { start 0xF020#16 with inq := [0xFF#8] }
    t.reg 0 = 0x00FF#16 ∧ t.cond = .pos ∧ t.reg 7 = 0x3001#16 ∧ t.inq = [] ∧ t.outq = [] := by decide

theorem test_getc_waits :
    let t := after (start 0xF020#16)
    t.reg 7 = 0x3001#16 ∧ t.waiting = some .getc ∧ faultOf t = some .waitingForInput ∧
      (after (hostAct (.supply [0x41#8]) t)).reg 0 = 0x0041#16 := by decide

theorem test_inp_echo :
    let t := after { start 0xF023#16 with inq := [0x80#8] }
    t.reg 0 = 0x0080#16 ∧ t.cond = .pos := by decide

theorem test_inp_prompt_then_echo :
    (after { start 0xF023#16 with inq := [0x7A#8] }).outq = Config.inPrompt ++ [0x7A#8] := rfl

theorem test_out :
    let t := after ((start 0xF021#16).setReg 0 0x0105#16)
    t.outq = [0x05#8] ∧ t.reg 0 = 0x0105#16 := by decide

theorem test_puts_wraps :
    let s := ((start 0xF022#16).setReg 0 0xFFFF#16).poke 0xFFFF#16 0x0041#16
    (after (s.poke 0#16 0x0042#16)).outq = [0x41#8, 0x42#8] := by decide

theorem test_puts_does_not_poll :
    let s := (((start 0xF022#16).setReg 0 0xFDFF#16).poke 0xFDFF#16 0x0041#16).poke 0xFE00#16 0x0042#16
    let t := after { s with inq := [0x43#8] }
    t.outq = [0x41#8, 0x42#8] ∧ t.peek 0xFE00#16 = 0x0042#16 ∧ t.inq = [0x43#8] := by decide

theorem test_putsp :
    let s := ((start 0xF024#16).setReg 0 0x4000#16).poke 0x4000#16 0x4948#16
    (after (s.poke 0x4001#16 0x0021#16)).outq = [0x48#8, 0x49#8, 0x21#8] := by decide

theorem test_putsp_low_byte_always :
    (after (((start 0xF024#16).setReg 0 0x4000#16).poke 0x4000#16 0x4100#16)).outq = [0x00#8, 0x41#8] := by decide

theorem test_halt :
    let t := after (start 0xFF25#16)
    t.running = false ∧ t.status = .halted ∧ t.reg 7 = 0x3001#16 ∧ t.pc = 0x3001#16 ∧ faultOf t = some .runEnded := by decide

theorem test_unknown_trap_vector :
    let t := after (start 0xF026#16)
    t.status = .fatal (.unknownTrapVector 0x26#8 0xF026#16 0x3000#16) ∧ t.reg 7 = 0x3001#16 := by decide

/-! ### Reserved opcodes, the fetch, reset (2.9, 2.10, P1) -/

theorem test_rti : (after (start 0x8FFF#16)).status = .fatal (.reservedOpcode 0b1000#4 0x8FFF#16 0x3000#16) := by decide

theorem test_res :
    let t := after (start 0xD000#16)
    t.status = .fatal (.reservedOpcode 0b1101#4 0xD000#16 0x3000#16) ∧ t.pc = 0x3001#16 ∧ t.reg 7 = 0#16 := by decide

theorem test_fetch_from_kbsr :
    let t := after { State.reset with pc := 0xFE00#16, inq := [0x41#8] }
    t.status = .fatal (.reservedOpcode 0b1000#4 0x8000#16 0xFE00#16) ∧ t.peek 0xFE02#16 = 0x0041#16 ∧
      (after { State.reset with pc := 0xFE00#16 }).pc = 0xFE01#16 := by decide

theorem test_withFetchWord_at_kbsr :
    (after ({ State.reset with pc := 0xFE00#16 }.withFetchWord 16 0x1025)).reg 0 = 5#16 := by decide

/-- A claim about the state a launch leaves; false of a refused one. -/
def launched (r : Except LaunchRefusal State) (p : State → Bool) : Bool :=
  match r with
  | .ok s => p s
  | .error _ => false

/-- Whether a launch was refused for the reason `e`. -/
def refusedAs (r : Except LaunchRefusal State) (e : LaunchRefusal) : Bool :=
  match r with
  | .ok _ => false
  | .error d => decide (d = e)

theorem test_launch_halt_image :
    launched (launch [[0x30#8, 0x00#8, 0xF0#8, 0x25#8]] [])
      (fun s => decide ((after s).status = .halted) && decide (s.peek 0x3000#16 = 0xF025#16)) = true := by decide

theorem test_launch_refusals :
    refusedAs (launch [[0x30#8]] []) .noOrigin = true ∧ refusedAs (launch [[0x30#8, 0#8, 1#8]] []) .oddLength = true ∧
      refusedAs (launch [[0xFF#8, 0xFF#8, 1#8, 2#8, 3#8, 4#8]] []) .pastEnd = true := by decide

/-! ### Witnesses: the hypotheses of the statements can be met, at the ends of their ranges too -/

theorem witness_EveryFormatDecodesToItsFields : isServiceVector 0x1F#8 = false ∧ isServiceVector 0x26#8 = false := by decide

theorem witness_DecodeOfEncodeIsTheInstruction : (Instr.trap 0xF#4 0xFF#8).wf = true ∧ (Instr.rti 0xABC#12).wf = true := by
  decide

theorem witness_DecodeAgreesWithTheOpcodeTable :
    (Instr.jsrr 0).wf = true ∧ 0x41C0#16 &&& tableMask (.jsrr 0) = tableMatch (.jsrr 0) ∧
      0xF020#16 &&& tableMask (.trap 0#4 0#8) = tableMatch (.trap 0#4 0#8) := by decide

theorem witness_SignExtensionIsTheMaskFormula : maskSext 5 0x001F#16 = 0xFFFF#16 ∧ maskSext 11 0x0400#16 = 0xFC00#16 := by
  decide

/-- Each clause of `ReadsCell`: another address, 0xFE00 with a byte, 0xFE00 with none. -/
theorem witness_ReadContract :
    0xFE01#16 ≠ Config.kbsr ∧ 0xFE00#16 = Config.kbsr ∧ { State.reset with inq := [0x41#8] }.inq = [0x41#8] ∧
      State.reset.inq = [] := by decide

theorem witness_EqualReadsAreEqualMemories :
    Memory.wf (State.reset.poke 0xFFFF#16 1#16).mem ∧
      SameMem (State.reset.poke 0xFFFF#16 1#16) (State.reset.poke 0xFFFF#16 1#16) := ⟨by decide, fun _ => rfl⟩

theorem witness_CondIsWrittenOnlyByTheListedInstructions :
    (∃ t, exec .getc { State.reset with inq := [0x41#8] } = .next t) ∧ Instr.getc.flagDest = some 0 ∧
    (∃ t, exec (.addReg 0 1 2) State.reset = .next t) ∧ (Instr.addReg 0 1 2).flagDest = some 0 ∧
    (∃ t, exec .out State.reset = .next t) ∧ Instr.out.flagDest = none :=
  ⟨⟨_, rfl⟩, rfl, ⟨_, rfl⟩, rfl, ⟨_, rfl⟩, rfl⟩

theorem witness_CondIsUnchangedWhileWaiting :
    ∃ t, exec .getc State.reset = .next t ∧ State.reset.waiting = none ∧ t.waiting ≠ none :=
  ⟨_, rfl, rfl, by decide⟩

/-- Both clauses: a mask bit that is set for the flag, and one that is not. -/
theorem witness_BranchResult :
    ((0b010#3).getLsbD 1 = true ∧ State.reset.cond = .zero) ∧ (0b101#3).getLsbD 1 = false := by decide

theorem witness_LdResult_StResult :
    ((0x3002#16).toNat : Int) = ((start 0#16).pc.toNat + (2#9).toInt) % 65536 ∧
      ((0x2F00#16).toNat : Int) = ((start 0#16).pc.toNat + (0x100#9).toInt) % 65536 := by decide

theorem witness_LdiResult_StiResult :
    ((0xFFFF#16).toNat : Int) = (({ State.reset with pc := 0#16 } : State).pc.toNat + (0x1FF#9).toInt) % 65536 := by decide

theorem witness_LdrResult_StrResult :
    ((0xFFE0#16).toNat : Int) = ((State.reset.reg 1).toNat + (0x20#6).toInt) % 65536 ∧
      ((0x001F#16).toNat : Int) = ((State.reset.reg 1).toNat + (0x1F#6).toInt) % 65536 := by decide

/-- Each of the three forms, and for STI a pointer at 0xFE00 and one elsewhere. -/
theorem witness_StoresWriteWholeWordsAndNothingElse :
    (Instr.st 1 0#9).isStore = true ∧ (∃ t, exec (.st 1 0#9) State.reset = .next t) ∧
    (Instr.str 1 2 0#6).isStore = true ∧ (∃ t, exec (.str 1 2 0#6) State.reset = .next t) ∧
    (Instr.sti 1 0#9).isStore = true ∧ (∃ t, exec (.sti 1 0#9) State.reset = .next t) ∧
    State.reset.pcRelative 0#9 ≠ Config.kbsr ∧ { State.reset with pc := 0xFE00#16 }.pcRelative 0#9 = Config.kbsr :=
  ⟨rfl, ⟨_, rfl⟩, rfl, ⟨_, rfl⟩, rfl, ⟨_, rfl⟩, by decide, by decide⟩

theorem witness_UnknownTrapVectorIsFatal : isServiceVector 0x00#8 = false ∧ isServiceVector 0xFF#8 = false := by decide

theorem witness_TrapEntrySavesOnlyTheReturnAddress :
    (Instr.trap 0#4 0x26#8).isTrap = true ∧ (∃ t, exec (.trap 0#4 0x26#8) State.reset = .next t) ∧
    Instr.halt.isTrap = true ∧ ∃ t, exec .halt State.reset = .next t := ⟨rfl, ⟨_, rfl⟩, rfl, ⟨_, rfl⟩⟩

theorem witness_InputServicesReadAByte : { State.reset with inq := [0x00#8, 0xFF#8] }.inq = 0x00#8 :: [0xFF#8] := rfl

theorem witness_InputServicesWait : State.reset.inq = [] := rfl

/-- A string of one cell that wraps, and the empty string. -/
theorem witness_PutsResult_PutspResult :
    let s := (State.reset.setReg 0 0xFFFF#16).poke 0xFFFF#16 0x0041#16
    (s.peek (s.reg 0 + BitVec.ofNat 16 1) = 0#16 ∧ ∀ k < 1, s.peek (s.reg 0 + BitVec.ofNat 16 k) ≠ 0#16) ∧
    (State.reset.peek (State.reset.reg 0 + BitVec.ofNat 16 0) = 0#16 ∧
      ∀ k < 0, State.reset.peek (State.reset.reg 0 + BitVec.ofNat 16 k) ≠ 0#16) := by decide

theorem witness_NothingResumesAfterAReservedOpcode : Instr.rti 0#12 = .rti 0#12 ∨ Instr.rti 0#12 = .res 0#12 := .inl rfl

/-- Both ends of each range of unknown vectors. -/
theorem witness_NoStepAfterTheRunEnds :
    ∀ v ∈ [0x00#8, 0x1F#8, 0x26#8, 0xFF#8], isServiceVector v = false := by decide

theorem witness_EndedRunIsFinal :
    (after (start 0xF025#16)).running = false ∧ (after (start 0x8000#16)).status ≠ .running ∧
      (hostAct .interrupt State.reset).status ≠ .running := by decide

theorem witness_RunningIsClearedOnlyByHalt :
    (∃ s, launch [] [0x41#8] = .ok s) ∧ (∃ t, step (start 0xF025#16) = .next t ∧ t.running = false) :=
  ⟨⟨_, rfl⟩, ⟨_, rfl, rfl⟩⟩

theorem witness_StepRunsTheDecodedInstruction :
    (start 0x1025#16).status = .running ∧ (start 0x1025#16).running = true ∧ (start 0x1025#16).waiting = none ∧
      (memRead (start 0x1025#16).pc (start 0x1025#16)).1 = 0x1025#16 ∧ decode 0x1025#16 = .addImm 0 0 5#5 := by decide

/-- Both clauses: a waiting core with an empty queue, and with a byte. -/
theorem witness_WaitingCoreStepsOnlyWithInput :
    let t := after (start 0xF020#16)
    t.status = .running ∧ t.running = true ∧ t.waiting = some .getc ∧ t.inq = [] ∧
      (hostAct (.supply [0x41#8]) t).waiting = some .getc ∧ (hostAct (.supply [0x41#8]) t).inq = [0x41#8] := by decide

theorem witness_LiftedWaitEqualsInputAlreadyThere :
    (start 0xF023#16).waiting = none ∧ ∃ t, step (start 0xF023#16) = .next t ∧ t.waiting ≠ none :=
  ⟨rfl, _, rfl, by decide⟩

theorem witness_EveryEnabledStateHasANextState :
    (start 0xF022#16).status = .running ∧ (start 0xF022#16).running = true ∧ (start 0xF022#16).waiting = none ∧
      goes (start 0xF022#16) = true := by decide

theorem witness_PcChangesOnlyByControlTransfer :
    (Instr.jsrr 7).transfersControl = true ∧ State.reset.status = .running ∧ State.reset.running = true ∧
      State.reset.waiting = none ∧ (Instr.lea 0 0#9).transfersControl = false ∧
      ∃ t, exec (.lea 0 0#9) State.reset = .next t := ⟨rfl, rfl, rfl, rfl, rfl, _, rfl⟩

/-- Both clauses: an instruction that reads by the contract, and one that does not. -/
theorem witness_MemoryChangesOnlyByStoresAndPolls :
    (Instr.ldr 0 1 0#6).isStore = false ∧ (∃ t, exec (.ldr 0 1 0#6) (State.reset.setReg 1 0xFE00#16) = .next t) ∧
    (Instr.lea 0 0#9).readsByContract = false ∧ (∃ t, exec (.lea 0 0#9) State.reset = .next t) :=
  ⟨rfl, ⟨_, rfl⟩, rfl, ⟨_, rfl⟩⟩

theorem witness_QueuesMoveOneWay : ∃ t, step (start 0xF021#16) = .next t := ⟨_, rfl⟩

theorem witness_FetchSeesTheStoredWord :
    0xFE01#16 ≠ Config.kbsr ∧ { State.reset with inq := [1#8] }.inq = 1#8 :: [] ∧ State.reset.inq = [] := by decide

theorem witness_LaunchStateIsTheResetState_EntryPointIsFixed_LaunchMeetsTheInvariant :
    ∃ s, launch [[0x30#8, 0x00#8, 0xF0#8, 0x25#8], [0x40#8, 0x00#8]] [0x41#8] = .ok s := ⟨_, rfl⟩

/-- An image that ends at 0xFFFF, and one with no payload. -/
theorem witness_ImagesAreLoadedVerbatim :
    ([0xFF#8, 0xFF#8, 0x12#8, 0x34#8] : List Byte).length = 2 * 1 + 2 ∧
      originNat [0xFF#8, 0xFF#8, 0x12#8, 0x34#8] + 1 ≤ 65536 ∧
      ([0xFF#8, 0xFF#8] : List Byte).length = 2 * 0 + 2 ∧ originNat [0xFF#8, 0xFF#8] + 0 ≤ 65536 ∧
      launched (loadImages [[0xFF#8, 0xFF#8, 0x12#8, 0x34#8]] State.reset)
        (fun t => decide (t.peek 0xFFFF#16 = 0x1234#16)) = true ∧
      launched (launch [[0xFF#8, 0xFF#8, 0x12#8, 0x34#8]] [])
        (fun t => decide (t.peek 0xFFFF#16 = 0x1234#16)) = true := by decide

theorem witness_UndefinedImagesAreRefused :
    ([] : List Byte).length < 2 ∧ ([1#8, 2#8, 3#8] : List Byte).length % 2 = 1 ∧
      65536 < originNat [0xFF#8, 0xFF#8, 1#8, 2#8, 3#8, 4#8] + (6 - 2) / 2 := by decide

theorem witness_HostActionsTouchOnlyTheirOwn : State.reset.status = .running := rfl

theorem witness_EveryStepKeepsTheInvariant :
    (start 0xF026#16).Inv ∧ ∃ t, step (start 0xF026#16) = .next t :=
  ⟨⟨by decide, by decide, by decide, fun _ h => by cases h⟩, _, rfl⟩

theorem witness_HostActionsKeepTheInvariant : State.reset.Inv :=
  ⟨wf_reset, by decide, by decide, fun _ h => by cases h⟩

/-- The state one step after the launch of the one-instruction image `w`. -/
def ran (hi lo : Byte) : State :=
  match launch [[0x30#8, 0x00#8, hi, lo]] [] with
  | .ok s => after s
  | .error _ => State.reset

/-- Each clause: a reachable state that is halted, one that is fatal, one that is stuck on input, and none of the three has
a next state. -/
theorem witness_ReachableEndsAreAccountedFor :
    (Reachable (ran 0xF0#8 0x25#8) ∧ (ran 0xF0#8 0x25#8).status = .halted ∧ goes (ran 0xF0#8 0x25#8) = false) ∧
    (Reachable (ran 0x80#8 0x00#8) ∧ (ran 0x80#8 0x00#8).safe = false ∧ goes (ran 0x80#8 0x00#8) = false) ∧
    (Reachable (ran 0xF0#8 0x20#8) ∧ (ran 0xF0#8 0x20#8).stuckOnInput = true ∧ goes (ran 0xF0#8 0x20#8) = false) :=
  ⟨⟨.stepped (.launched (images := [[0x30#8, 0x00#8, 0xF0#8, 0x25#8]]) (input := []) rfl) rfl, by decide, by decide⟩,
   ⟨.stepped (.launched (images := [[0x30#8, 0x00#8, 0x80#8, 0x00#8]]) (input := []) rfl) rfl, by decide, by decide⟩,
   ⟨.stepped (.launched (images := [[0x30#8, 0x00#8, 0xF0#8, 0x20#8]]) (input := []) rfl) rfl, by decide, by decide⟩⟩

end Sys2Proof.Tests
end

section
/-! PROOFS. 00_scope: sign extension (R10), the input queue and the wait (R16), the output (R17). -/

namespace Sys2Proof.Proofs

open Sys2Proof.Machine Sys2Proof.Claims

/-! ### Sign extension (00_scope R10) -/

section SignExtension

variable {n i : Nat}

/-- The mask of the pseudocode keeps the low `n` bits. -/
theorem getLsbD_and_lowMask (v : Word) (hi : i < 16) :
    (v &&& BitVec.ofNat 16 (2 ^ n - 1)).getLsbD i = (v.getLsbD i && decide (i < n)) := by
  rw [BitVec.getLsbD_and, BitVec.getLsbD_ofNat, Nat.testBit_two_pow_sub_one, decide_eq_true hi, Bool.true_and]

/-- The mask that is ORed in has its 1s from bit `n` up. -/
theorem getLsbD_highMask (hi : i < 16) : (0xFFFF#16 <<< n).getLsbD i = !decide (i < n) := by
  have hone : (BitVec.allOnes 16).getLsbD (i - n) = true := by
    rw [BitVec.getLsbD_allOnes]
    exact decide_eq_true (by omega)
  rw [show (0xFFFF#16) = BitVec.allOnes 16 from rfl, BitVec.getLsbD_shiftLeft, hone, decide_eq_true hi,
    Bool.true_and, Bool.and_true]

/-- Bit `i` of the mask formula is bit `i` of the value inside the field, and the field's highest bit above it. -/
theorem getLsbD_maskSext (hn : 0 < n) (hn16 : n ≤ 16) (v : Word) (hi : i < 16) :
    (maskSext n v).getLsbD i = v.getLsbD (min i (n - 1)) := by
  have hsign : (v &&& BitVec.ofNat 16 (2 ^ n - 1)).getLsbD (n - 1) = v.getLsbD (n - 1) := by
    simp [getLsbD_and_lowMask v (show n - 1 < 16 by omega), hn]
  simp only [maskSext, hsign]
  rcases Nat.lt_or_ge i n with hin | hin
  · rw [Nat.min_eq_left (show i ≤ n - 1 by omega)]
    split
    · rw [BitVec.getLsbD_or, getLsbD_highMask hi, getLsbD_and_lowMask v hi]
      simp [hin]
    · rw [getLsbD_and_lowMask v hi]
      simp [hin]
  · rw [Nat.min_eq_right (show n - 1 ≤ i by omega)]
    split
    next hsigned =>
      rw [BitVec.getLsbD_or, getLsbD_highMask hi, hsigned]
      simp [Nat.not_lt.mpr hin]
    next hunsigned =>
      rw [getLsbD_and_lowMask v hi, Bool.eq_false_of_not_eq_true hunsigned]
      simp [Nat.not_lt.mpr hin]

/-- Bit `i` of a sign-extended field, in the same words as for the mask formula. -/
theorem getLsbD_sext_setWidth (hn : 0 < n) (v : Word) (hi : i < 16) :
    (sext (v.setWidth n)).getLsbD i = v.getLsbD (min i (n - 1)) := by
  rw [sext, BitVec.getLsbD_signExtend]
  rcases Nat.lt_or_ge i n with hin | hin
  · simp [hi, hin, Nat.min_eq_left (show i ≤ n - 1 by omega)]
  · simp [hi, Nat.not_lt.mpr hin, Nat.min_eq_right (show n - 1 ≤ i by omega), BitVec.msb_eq_getLsbD_last, hn]

theorem sext_setWidth_eq_maskSext (hn : 0 < n) (hn16 : n ≤ 16) (v : Word) : sext (v.setWidth n) = maskSext n v :=
  BitVec.eq_of_getLsbD_eq fun i hi => by
    rw [getLsbD_sext_setWidth hn v hi, getLsbD_maskSext hn hn16 v hi]

theorem maskSext_idem (hn : 0 < n) (hn16 : n ≤ 16) (v : Word) : maskSext n (maskSext n v) = maskSext n v :=
  BitVec.eq_of_getLsbD_eq fun i hi => by
    rw [getLsbD_maskSext hn hn16 _ hi, getLsbD_maskSext hn hn16 v (by omega), getLsbD_maskSext hn hn16 v hi,
      Nat.min_assoc, Nat.min_self]

theorem zext8_toNat (b : Byte) : (zext8 b).toNat = b.toNat := BitVec.toNat_setWidth_of_le (by decide)

end SignExtension

/-- Settles O5: bit `i` of either side is bit `min i (n - 1)` of the value, at any width up to 16. -/
theorem signExtensionIsTheMaskFormula : Obligations.SignExtensionIsTheMaskFormula := by
  refine ⟨fun v => ⟨?_, ?_, ?_, ?_⟩, fun n hn v => ?_, zext8_toNat⟩
  iterate 4 exact sext_setWidth_eq_maskSext (by decide) (by decide) v
  have ⟨hpos, hle⟩ : 0 < n ∧ n ≤ 16 := by simp at hn; omega
  exact maskSext_idem hpos hle v

/-! ### The queues (00_scope R16, R17) -/

/-- No instruction takes back output, and none takes input but from the head. -/
theorem exec_queues {i : Instr} {s t : State} (h : exec i s = .next t) : s.outq <+: t.outq ∧ t.inq <:+ s.inq := by
  cases hi : i.isTrap with
  | true =>
    obtain ⟨-, -, -, hout, hinq, -⟩ := exec_trap_frame hi h
    exact ⟨hout, hinq⟩
  | false =>
    obtain ⟨hout, hinq, -⟩ := exec_plain_frame hi h
    exact ⟨hout ▸ List.prefix_rfl, hinq⟩

/-- Settles O48: a step resumes a wait, or runs an instruction after a fetch, which may poll. -/
theorem queuesMoveOneWay : Obligations.QueuesMoveOneWay := by
  intro s t h
  obtain ⟨-, ⟨w, b, rest, -, hq, rfl⟩ | ⟨-, hexec⟩⟩ := step_next h
  · rw [← readInput_of_byte w hq]
    obtain ⟨-, -, -, -, -, hout, hinq⟩ := readInput_frame w s
    exact ⟨hout, hinq⟩
  · obtain ⟨hout, hinq⟩ := exec_queues hexec
    rw [fetch_outq] at hout
    rw [fetch_inq] at hinq
    exact ⟨hout, hinq.trans (afterRead_inq_suffix s s.pc)⟩

/-! ### The wait (00_scope R16, 44_trap R141, R144) -/

theorem resumeInput_of_empty (w : InputWait) {s : State} (h : s.inq = []) :
    resumeInput w s = .fault .waitingForInput := by
  simp [resumeInput, h]

theorem resumeInput_of_byte (w : InputWait) {s : State} {b : Byte} {rest : List Byte} (h : s.inq = b :: rest) :
    resumeInput w s = .next (acceptByte w b { s with inq := rest, waiting := none }) := by
  simp [resumeInput, h, readInput_of_byte w h]

theorem writeResult_onlyResult (dr : Reg) (v : Word) (s : State) : OnlyResult dr v s (writeResult dr v s) :=
  ⟨writeResult_reg_self s dr v, condOf_toInt v, fun _ hq => writeResult_reg_other s hq v, rfl, fun _ => rfl,
    ⟨rfl, rfl⟩, rfl, rfl, rfl⟩

/-- Accepting a byte is a result in R0, and the echo if there is one. -/
theorem acceptByte_onlyResult (w : InputWait) (b : Byte) (s : State) :
    OnlyResult 0 (zext8 b) { s with outq := (acceptByte w b s).outq } (acceptByte w b s) := by
  cases w with
  | getc => exact writeResult_onlyResult 0 (zext8 b) s
  | inp => exact writeResult_onlyResult 0 (zext8 b) (s.outWrite [b])

theorem acceptByte_outq (w : InputWait) (b : Byte) (s : State) :
    (acceptByte w b s).outq = s.outq ++ (match w with | .getc => [] | .inp => [b]) := by
  obtain ⟨-, -, -, -, -, -, -, -, -, hout⟩ := acceptByte_fields w b s
  exact hout

/-- Settles O43: the step of a waiting core is `resumeInput`, which needs a byte and accepts it. -/
theorem waitingCoreStepsOnlyWithInput : Obligations.WaitingCoreStepsOnlyWithInput := by
  intro s w hst hrun hw
  have hstep : step s = resumeInput w s := step_of_waiting ((enabled_iff s).mpr ⟨hrun, hst⟩) hw
  refine ⟨fun hq => hstep.trans (resumeInput_of_empty w hq), fun b rest hq =>
    ⟨_, hstep.trans (resumeInput_of_byte w hq), ?_, acceptByte_outq w b _⟩⟩
  rw [BitVec.ofNat_toNat]
  exact acceptByte_onlyResult w b { s with inq := rest, waiting := none }

end Sys2Proof.Proofs
end

section
/-! PROOFS. 10_state: the register file (R20 to R23), the writers of COND (R24), `running` (R25), the state a run starts
in (R32), and the invariant. -/

namespace Sys2Proof.Proofs

open Sys2Proof.Machine Sys2Proof.Claims

/-! ### The register file (10_state R20 to R23) -/

theorem condCode_one_hot (c : Cond) : condCode c = 0x0004#16 ∨ condCode c = 0x0002#16 ∨ condCode c = 0x0001#16 := by
  cases c <;> decide

/-- Settles O6: the entries are read through `State.reg`, PC and COND, and `State.setReg` writes one register. -/
theorem registersHaveNoAliases : Obligations.RegistersHaveNoAliases := fun s r v =>
  ⟨State.setReg_reg_self s r v, fun _ hq => State.setReg_reg_other s hq v, rfl, rfl, condCode_one_hot s.cond⟩

/-! ### The writers of COND (10_state R24) -/

section Flags

variable {i : Instr} {s t : State}

/-- COND is the flag of the destination, where there is one, and is unchanged where there is none. -/
def FlagRule (dest : Option Reg) (s t : State) : Prop :=
  match dest with
  | some dr => FlagOf (t.reg dr) t.cond
  | none => t.cond = s.cond

theorem flagOf_of_onlyResult {dr : Reg} {v : Word} (h : OnlyResult dr v s t) : FlagOf (t.reg dr) t.cond := by
  obtain ⟨hval, hflag, -⟩ := h
  exact hval ▸ hflag

theorem writeResult_flagRule (dr : Reg) (v : Word) (u s : State) : FlagRule (some dr) s (writeResult dr v u) :=
  flagOf_of_onlyResult (writeResult_onlyResult dr v u)

/-- An input service that finds a byte sets COND from R0. -/
theorem readInput_flagRule (w : InputWait) {u : State} (hq : u.inq ≠ []) (s : State) :
    FlagRule (some 0) s (readInput w u) := by
  obtain ⟨b, rest, hq⟩ := List.exists_cons_of_ne_nil hq
  rw [readInput_of_byte w hq]
  exact flagOf_of_onlyResult (acceptByte_onlyResult w b _)

/-- A string service leaves COND alone. -/
theorem writeString_trapEntry_cond {bytesOf : Word → List Byte} (h : writeString bytesOf (trapEntry s) = .next t) :
    t.cond = s.cond := by
  obtain ⟨bs, rfl⟩ := writeString_next h
  rfl

/-- TRAP obeys the flag rule of the service its vector selects. -/
theorem exec_trap_flagRule {x : BitVec 4} {v : Byte} (h : exec (.trap x v) s = .next t)
    (hq : (Instr.trap x v).flagDest = none ∨ s.inq ≠ []) : FlagRule (Instr.trap x v).flagDest s t := by
  rcases exec_trap_cases x v s with ⟨rfl, e⟩ | ⟨rfl, e⟩ | ⟨rfl, e⟩ | ⟨rfl, e⟩ | ⟨rfl, e⟩ | ⟨rfl, e⟩ | ⟨hv, e⟩ <;>
    rw [e] at h
  · cases eq_of_next h; exact readInput_flagRule (u := trapEntry s) .getc (hq.resolve_left nofun) s
  · cases eq_of_next h; rfl
  · exact writeString_trapEntry_cond h
  · cases eq_of_next h; exact readInput_flagRule (u := (trapEntry s).outWrite _) .inp (hq.resolve_left nofun) s
  · exact writeString_trapEntry_cond h
  · cases eq_of_next h; rfl
  · have hdest : (Instr.trap x v).flagDest = none := if_neg (by rintro (rfl | rfl) <;> cases hv)
    rw [hdest]
    cases eq_of_next h; rfl

/-- Every instruction that answers a next state obeys the flag rule of its destination; the input services, by either
name, where they find a byte. -/
theorem exec_flagRule (h : exec i s = .next t)
    (hq : i.flagDest = none ∨ s.inq ≠ [] ∨ (i ≠ .getc ∧ i ≠ .inp ∧ ∀ x v, i ≠ .trap x v)) :
    FlagRule i.flagDest s t := by
  cases i with
  | addReg | addImm | andReg | andImm | notReg | ld | ldi | ldr | lea =>
    cases eq_of_next h; exact writeResult_flagRule _ _ _ s
  | getc => cases eq_of_next h; exact readInput_flagRule .getc (by simpa [Instr.flagDest] using hq) s
  | inp => cases eq_of_next h; exact readInput_flagRule .inp (by simpa [Instr.flagDest] using hq) s
  | trap x v => exact exec_trap_flagRule h (by simpa using hq)
  | puts | putsp => exact writeString_trapEntry_cond h
  | br nzp off9 =>
    have e : t = if branchTaken nzp s.cond then s.setPc (s.pcRelative off9) else s := eq_of_next h
    split at e <;> subst e <;> rfl
  | sti => cases eq_of_next h; simp [FlagRule, Instr.flagDest]
  | jmp | jsr | jsrr | st | str | out | halt | rti | res => cases eq_of_next h; rfl

end Flags

/-- Settles O10: the two clauses are the flag rule with a destination and without one. -/
theorem condIsWrittenOnlyByTheListedInstructions : Obligations.CondIsWrittenOnlyByTheListedInstructions := by
  intro i s t h
  refine ⟨fun dr hdest hq => ?_, fun hdest => ?_⟩
  · have hrule := exec_flagRule h (.inr hq)
    rwa [hdest] at hrule
  · have hrule := exec_flagRule h (.inl hdest)
    rwa [hdest] at hrule

/-! ### The state a run starts in (10_state R32, 70_reset R190) -/

section Launch

variable {images : List (List Byte)} {input : List Byte} {s : State}

/-- A launch leaves the reset state but for the input and a memory in canonical form. -/
theorem launch_eq (h : launch images input = .ok s) :
    s = { State.reset with inq := input, mem := s.mem } ∧ Memory.wf s.mem := by
  obtain ⟨hframe, hwf⟩ := loadImages_ok h
  exact ⟨hframe, hwf wf_reset⟩

theorem launch_running (h : launch images input = .ok s) : s.running = true := by
  rw [(launch_eq h).1]; rfl

end Launch

theorem reset_reg (q : Reg) : State.reset.reg q = 0#16 := by
  rw [State.reg_eq]; exact Vector.getElem_replicate q.isLt

/-- Settles O50: the images are loaded over the reset state with the input supplied, whose memory lists no cell. -/
theorem launchStateIsTheResetState : Obligations.LaunchStateIsTheResetState := by
  intro images input s h
  have hloaded : loadImages images { State.reset with inq := input } = .ok s := h
  obtain ⟨hs, -⟩ := launch_eq h
  rw [hs] at hloaded ⊢
  exact ⟨reset_reg, rfl, rfl, rfl, rfl, rfl, rfl, _, fun _ => rfl, hloaded⟩

/-! ### The invariant -/

section Invariant

variable {i : Instr} {s t : State}

/-- While the run goes on, the invariant asks for a canonical memory and, during a wait, for the return address in R7. -/
theorem inv_of_running (hmem : Memory.wf s.mem) (hrun : s.running = true) (hst : s.status = .running)
    (hwait : s.waiting ≠ none → s.reg 7 = s.pc) : s.Inv where
  memory := hmem
  halted := by simp [hrun, hst]
  waits hw := ⟨.inl hst, hwait hw⟩
  record info hinfo := by simp [hst] at hinfo

theorem inv_of_halted (hmem : Memory.wf s.mem) (hrun : s.running = false) (hst : s.status = .halted)
    (hwait : s.waiting = none) : s.Inv where
  memory := hmem
  halted := by simp [hrun, hst]
  waits hw := absurd hwait hw
  record info hinfo := by simp [hst] at hinfo

/-- After a fatal condition the invariant asks for its record to be right. -/
theorem inv_of_fatal {info : FatalInfo} (hmem : Memory.wf s.mem) (hrun : s.running = true)
    (hst : s.status = .fatal info) (hwait : s.waiting = none) (hrec : fatalRecordOk info s = true) : s.Inv where
  memory := hmem
  halted := by simp [hrun, hst]
  waits hw := absurd hwait hw
  record info' hinfo := by
    cases hst.symm.trans hinfo
    exact hrec

/-- The record of RTI and RES, whose word is the opcode and the ignored bits. -/
theorem fatalRecordOk_reservedOpcode {op : BitVec 4} (hop : op = 0b1000#4 ∨ op = 0b1101#4) (x : BitVec 12)
    (hpc : t.pc = s.pc) : fatalRecordOk (.reservedOpcode op (op ++ x) (s.pc - 1#16)) t = true := by
  simp [fatalRecordOk, opcodeField_append, hop, State.instrAddress, hpc]

theorem fatalRecordOk_unknownTrapVector (x : BitVec 4) {v : Byte} (hv : isServiceVector v = false)
    (hpc : t.pc = s.pc) (hlink : t.reg 7 = t.pc) :
    fatalRecordOk (.unknownTrapVector v (trapWord x v) (s.pc - 1#16)) t = true := by
  simp [fatalRecordOk, lowByte_trapWord, opcodeField_trapWord, hv, State.instrAddress, hpc, hlink]

/-- An instruction that is no TRAP leaves the run as it was, or ends it by a reserved opcode it records. -/
theorem exec_plain_inv (hi : i.isTrap = false) (h : exec i s = .next t) (hmem : Memory.wf s.mem)
    (hrun : s.running = true) (hst : s.status = .running) (hwait : s.waiting = none) : t.Inv := by
  obtain ⟨-, -, hrun', hwait', hmem', hend⟩ := exec_plain_frame hi h
  rw [hrun] at hrun'
  rw [hwait] at hwait'
  rcases hend with hst' | ⟨x, -, hfatal, hpc⟩ | ⟨x, -, hfatal, hpc⟩
  · exact inv_of_running (hmem' hmem) hrun' (hst'.trans hst) fun hw => absurd hwait' hw
  · exact inv_of_fatal (hmem' hmem) hrun' hfatal hwait' (fatalRecordOk_reservedOpcode (.inl rfl) x hpc)
  · exact inv_of_fatal (hmem' hmem) hrun' hfatal hwait' (fatalRecordOk_reservedOpcode (.inr rfl) x hpc)

/-- TRAP links in R7 what PC stays at, so a wait may follow; HALT and an unknown vector end the run. -/
theorem exec_trap_inv (hi : i.isTrap = true) (h : exec i s = .next t) (hmem : Memory.wf s.mem)
    (hrun : s.running = true) (hst : s.status = .running) (hwait : s.waiting = none) : t.Inv := by
  obtain ⟨hpc, hmem', hreg, -, -, hend⟩ := exec_trap_frame hi h
  have hlink : t.reg 7 = t.pc := by rw [hreg 7 (by decide), trapEntry_reg_link, hpc]
  rw [← hmem'] at hmem
  rcases hend with ⟨hrun', hst'⟩ | ⟨hrun', hst', hwait', -⟩ | ⟨hrun', hwait', x, v, -, hv, hfatal⟩
  · exact inv_of_running hmem (hrun'.trans hrun) (hst'.trans hst) fun _ => hlink
  · exact inv_of_halted hmem hrun' hst' (hwait'.trans hwait)
  · exact inv_of_fatal hmem (hrun'.trans hrun) hfatal (hwait'.trans hwait)
      (fatalRecordOk_unknownTrapVector x hv hpc hlink)

/-- Accepting the byte that lifts a wait leaves the run going on, and nothing waits. -/
theorem acceptByte_inv (w : InputWait) (b : Byte) (hmem : Memory.wf s.mem) (hrun : s.running = true)
    (hst : s.status = .running) (hwait : s.waiting = none) : (acceptByte w b s).Inv := by
  obtain ⟨-, -, -, -, hmem', -, hrun', hst', hwait', -⟩ := acceptByte_fields w b s
  exact inv_of_running (hmem' ▸ hmem) (hrun'.trans hrun) (hst'.trans hst) fun hw => absurd (hwait'.trans hwait) hw

end Invariant

/-- Settles O57: a step resumes a wait, or runs an instruction on the state after the fetch, which keeps the canonical
memory and in which the run goes on. -/
theorem everyStepKeepsTheInvariant : Obligations.EveryStepKeepsTheInvariant := by
  intro s t hinv h
  obtain ⟨henabled, hstep⟩ := step_next h
  obtain ⟨hrun, hst⟩ := (enabled_iff s).mp henabled
  rcases hstep with ⟨w, b, rest, -, -, rfl⟩ | ⟨hwait, hexec⟩
  · exact acceptByte_inv w b hinv.memory hrun hst rfl
  · have hmem : Memory.wf (fetch s).2.mem := by
      rw [fetch_mem]
      exact wf_afterRead hinv.memory s.pc
    rw [← fetch_running] at hrun
    rw [← fetch_status] at hst
    rw [← fetch_waiting] at hwait
    cases hi : (decode (fetch s).1).isTrap with
    | true => exact exec_trap_inv hi hexec hmem hrun hst hwait
    | false => exact exec_plain_inv hi hexec hmem hrun hst hwait

/-- Settles O55: at reset the run goes on and nothing waits. -/
theorem resetMeetsTheInvariant : Obligations.ResetMeetsTheInvariant :=
  inv_of_running wf_reset rfl rfl fun hw => absurd rfl hw

/-- Settles O56: a launch differs from reset in the input and the memory only. -/
theorem launchMeetsTheInvariant : Obligations.LaunchMeetsTheInvariant := by
  intro images input s h
  obtain ⟨hs, hmem⟩ := launch_eq h
  have hst : s.status = .running := by rw [hs]; rfl
  have hwait : s.waiting = none := by rw [hs]; rfl
  exact ⟨inv_of_running hmem (launch_running h) hst fun hw => absurd hwait hw, hwait⟩

/-! ### The run flag (10_state R25) -/

section RunFlag

variable {s t : State}

/-- An instruction that clears `running` is HALT, or a TRAP that carries HALT's vector. -/
theorem exec_clears_running {i : Instr} (h : exec i s = .next t) (hrun : s.running = true)
    (hclear : t.running = false) : t.status = .halted ∧ (i = .halt ∨ ∃ x, i = .trap x 0x25#8) := by
  have hne : t.running ≠ s.running := by simp [hrun, hclear]
  cases hi : i.isTrap with
  | true =>
    obtain ⟨-, -, -, -, -, hend⟩ := exec_trap_frame hi h
    rcases hend with ⟨hsame, -⟩ | ⟨-, hst, -, hhalt⟩ | ⟨hsame, -⟩
    · exact absurd hsame hne
    · exact ⟨hst, hhalt⟩
    · exact absurd hsame hne
  | false =>
    obtain ⟨-, -, hsame, -⟩ := exec_plain_frame hi h
    exact absurd hsame hne

theorem step_running (h : step s = .next t) : s.running = true :=
  ((enabled_iff s).mp (step_next h).1).1

theorem hostAct_running (a : HostAction) (s : State) : (hostAct a s).running = s.running := by
  unfold hostAct
  split
  · cases a <;> rfl
  · rfl

end RunFlag

/-- Settles O41: a resumed wait keeps `running`, and no word decodes to a TRAP with HALT's vector. -/
theorem runningIsClearedOnlyByHalt : Obligations.RunningIsClearedOnlyByHalt := by
  refine ⟨fun _ _ _ => launch_running, fun _ _ => step_running, fun s t h hclear => ?_, hostAct_running⟩
  have hrun := step_running h
  obtain ⟨-, ⟨w, b, rest, -, -, rfl⟩ | ⟨hwait, hexec⟩⟩ := step_next h
  · obtain ⟨-, -, -, -, -, -, hsame, -⟩ := acceptByte_fields w b { s with inq := rest, waiting := none }
    cases hrun.symm.trans (hsame.symm.trans hclear)
  · rw [← fetch_running] at hrun
    obtain ⟨hst, hhalt | ⟨x, hx⟩⟩ := exec_clears_running hexec hrun hclear
    · exact ⟨hwait, hhalt, hst⟩
    · cases decode_trap_vector hx

end Sys2Proof.Proofs
end

section
/-! PROOFS. 20_memory: the canonical form (R40), the read and the write contract (R42 to R44), what changes memory (R45,
R48, R58), the fetch after a store (R53, R56). -/

namespace Sys2Proof.Proofs

open Sys2Proof.Machine Sys2Proof.Claims

/-! ### The canonical form (20_memory R40; log 1) -/

section Canonical

variable {m n : Memory} {c : MemCell}

/-- A listed cell reads as what is listed, since no address is listed twice. -/
theorem cellRead_of_mem (hm : m.Pairwise fun c d => c.1 < d.1) (hc : c ∈ m) : cellRead m c.1 = c.2 := by
  induction m with
  | nil => cases hc
  | cons d rest ih =>
    obtain ⟨hhead, hrest⟩ := List.pairwise_cons.mp hm
    rw [cellRead]
    rcases List.mem_cons.mp hc with rfl | hc
    · exact if_pos rfl
    · rw [if_neg (Nat.ne_of_gt (hhead c hc)), ih hrest hc]

/-- An address that does not read 0x0000 is listed, with what it reads. -/
theorem mem_of_cellRead_ne_zero {a : Nat} (h : cellRead m a ≠ 0#16) : (a, cellRead m a) ∈ m := by
  induction m with
  | nil => exact absurd rfl h
  | cons d rest ih =>
    rw [cellRead] at h ⊢
    split at h
    next ha => rw [if_pos ha, ha]; exact List.mem_cons_self
    next ha => rw [if_neg ha]; exact List.mem_cons_of_mem d (ih h)

theorem mem_of_equal_reads (hm : Memory.wf m) (h : ∀ a < Config.memorySize, cellRead m a = cellRead n a) (hc : c ∈ m) :
    c ∈ n := by
  obtain ⟨hsorted, hcells⟩ := hm
  obtain ⟨hne, hlt⟩ := hcells c hc
  have hread : cellRead n c.1 = c.2 := (h c.1 hlt).symm.trans (cellRead_of_mem hsorted hc)
  have hlisted := mem_of_cellRead_ne_zero (m := n) (hread ▸ hne)
  rwa [hread] at hlisted

/-- Strictly rising lists with the same members are the same list. -/
theorem eq_of_equal_reads (hm : Memory.wf m) (hn : Memory.wf n)
    (h : ∀ a < Config.memorySize, cellRead m a = cellRead n a) : m = n := by
  have : Std.Irrefl fun c d : MemCell => c.1 < d.1 := ⟨fun c => Nat.lt_irrefl c.1⟩
  have : Std.Antisymm fun c d : MemCell => c.1 < d.1 := ⟨fun _ _ hcd hdc => absurd hdc (Nat.lt_asymm hcd)⟩
  exact hm.1.eq_of_mem_iff hn.1 fun _ =>
    ⟨mem_of_equal_reads hm h, mem_of_equal_reads hn fun a ha => (h a ha).symm⟩

end Canonical

/-- Settles O9: every address below 65536 is a word, so the two memories list the same cells. -/
theorem equalReadsAreEqualMemories : Obligations.EqualReadsAreEqualMemories := by
  intro s t hs ht hsame
  refine eq_of_equal_reads hs ht fun a ha => ?_
  have hnum : (BitVec.ofNat 16 a).toNat = a := Nat.mod_eq_of_lt ha
  have hread := hsame (BitVec.ofNat 16 a)
  rw [State.peek, State.peek, hnum] at hread
  exact hread.symm

/-! ### The read contract (20_memory R42, R43) -/

section Reads

variable {s : State} {b : Byte} {rest : List Byte}

theorem kbsr_ne_kbdr : Config.kbsr ≠ Config.kbdr := by decide

theorem poll_kbsr_of_byte (h : s.inq = b :: rest) : s.poll.peek Config.kbsr = 0x8000#16 := by
  rw [poll_of_byte h, State.poke_peek_other _ kbsr_ne_kbdr, State.poke_peek_self]

theorem poll_kbdr_of_byte (h : s.inq = b :: rest) : s.poll.peek Config.kbdr = zext8 b := by
  rw [poll_of_byte h, State.poke_peek_self]

theorem poll_inq_of_byte (h : s.inq = b :: rest) : s.poll.inq = rest := by
  rw [poll_of_byte h]; rfl

theorem poll_kbsr_of_empty (h : s.inq = []) : s.poll.peek Config.kbsr = 0#16 := by
  rw [poll_of_empty h, State.poke_peek_self]

theorem poll_kbdr_of_empty (h : s.inq = []) : s.poll.peek Config.kbdr = s.peek Config.kbdr := by
  rw [poll_of_empty h, State.poke_peek_other _ kbsr_ne_kbdr.symm]

theorem poll_inq_of_empty (h : s.inq = []) : s.poll.inq = [] := by
  rw [poll_of_empty h]; exact h

theorem memRead_fst_of_ne {a : Word} (ha : a ≠ Config.kbsr) (s : State) : (memRead a s).1 = s.peek a := by
  rw [memRead_fst, afterRead_of_ne ha]

theorem memRead_kbsr_of_byte (h : s.inq = b :: rest) : (memRead Config.kbsr s).1 = 0x8000#16 := by
  rw [memRead_fst, afterRead_kbsr, poll_kbsr_of_byte h]

theorem memRead_kbsr_of_empty (h : s.inq = []) : (memRead Config.kbsr s).1 = 0#16 := by
  rw [memRead_fst, afterRead_kbsr, poll_kbsr_of_empty h]

/-- A read of KBSR never gives a stored word but one of the poll's own two. -/
theorem memRead_kbsr (s : State) : (memRead Config.kbsr s).1 = 0x8000#16 ∨ (memRead Config.kbsr s).1 = 0#16 := by
  cases hq : s.inq with
  | nil => exact .inr (memRead_kbsr_of_empty hq)
  | cons b rest => exact .inl (memRead_kbsr_of_byte hq)

/-- Every read obeys the contract: away from KBSR it leaves the state alone, at KBSR it polls. -/
theorem memRead_readsCell (a : Word) (s : State) : ReadsCell a (memRead a s).1 s (memRead a s).2 := by
  refine ⟨fun ha => ?_, ?_, ?_, fun c hsr hdr => afterRead_peek_other s a hsr hdr, afterRead_reg s a, afterRead_pc s a,
    afterRead_cond s a, afterRead_outq s a, afterRead_running s a, afterRead_status s a, afterRead_waiting s a⟩
  · rw [memRead_snd, afterRead_of_ne ha]
    exact ⟨memRead_fst_of_ne ha s, fun _ => rfl, rfl⟩
  · rintro rfl b rest hq
    rw [memRead_snd, afterRead_kbsr, poll_kbdr_of_byte hq]
    exact ⟨memRead_kbsr_of_byte hq, poll_kbsr_of_byte hq, zext8_toNat b, poll_inq_of_byte hq⟩
  · rintro rfl hq
    rw [memRead_snd, afterRead_kbsr]
    exact ⟨memRead_kbsr_of_empty hq, poll_kbsr_of_empty hq, poll_kbdr_of_empty hq, poll_inq_of_empty hq⟩

end Reads

/-- Settles O8: the contract is `ReadsCell` of `memRead`. -/
theorem readContract : Obligations.ReadContract := fun s a => memRead_readsCell a s

/-! ### The write contract (20_memory R44) -/

theorem memWrite_storesAt (a v : Word) (s : State) : StoresAt a v s (memWrite a v s) :=
  ⟨memWrite_peek_self s a v, fun _ hb => memWrite_peek_other s hb v, fun _ => rfl, rfl, rfl, ⟨rfl, rfl⟩, rfl, rfl, rfl⟩

/-- Away from KBSR a read gives back the word stored there. -/
theorem memRead_memWrite {a : Word} (ha : a ≠ Config.kbsr) (v : Word) (s : State) :
    (memRead a (memWrite a v s)).1 = v := by
  rw [memRead_fst_of_ne ha, memWrite_peek_self]

/-- Settles O7: KBDR is read like any cell that is not KBSR, and a read of KBSR polls whatever was stored there. -/
theorem writeContract : Obligations.WriteContract := fun s a v =>
  ⟨memWrite_storesAt a v s, memRead_memWrite kbsr_ne_kbdr.symm v s, memRead_kbsr _⟩

/-! ### What changes memory (20_memory R45, R48, R58) -/

section MemoryChanges

variable {i : Instr} {s t : State}

/-- An instruction that neither stores nor reads by the contract leaves memory as it is. -/
theorem exec_mem_of_no_access (h : exec i s = .next t) (hstore : i.isStore = false)
    (hread : i.readsByContract = false) : t.mem = s.mem := by
  cases htrap : i.isTrap with
  | true =>
    obtain ⟨-, hmem, -⟩ := exec_trap_frame htrap h
    exact hmem
  | false =>
    cases i with
    | st | sti | str => cases hstore
    | ld | ldi | ldr => cases hread
    | trap | getc | out | puts | inp | putsp | halt => cases htrap
    | br nzp off9 =>
      have e : t = if branchTaken nzp s.cond then s.setPc (s.pcRelative off9) else s := eq_of_next h
      split at e <;> subst e <;> rfl
    | addReg | addImm | andReg | andImm | notReg | jmp | jsr | jsrr | lea | rti | res => cases eq_of_next h; rfl

theorem exec_sameMem_of_no_access (h : exec i s = .next t) (hstore : i.isStore = false)
    (hread : i.readsByContract = false) : SameMem s t :=
  fun a => congrArg (cellRead · a.toNat) (exec_mem_of_no_access h hstore hread)

/-- What a load leaves in memory is what its read leaves. -/
theorem loadFrom_peek (dr : Reg) (ea : Word) (s : State) (a : Word) :
    (loadFrom dr ea s).peek a = (s.afterRead ea).peek a := rfl

/-- An instruction that is no store leaves every cell but the two keyboard registers: its reads may poll. -/
theorem exec_peek_of_no_store (h : exec i s = .next t) (hstore : i.isStore = false) {a : Word} (hsr : a ≠ Config.kbsr)
    (hdr : a ≠ Config.kbdr) : t.peek a = s.peek a := by
  cases hread : i.readsByContract with
  | false => exact exec_sameMem_of_no_access h hstore hread a
  | true =>
    cases i with
    | ld | ldr =>
      cases eq_of_next h
      rw [loadFrom_peek, afterRead_peek_other s _ hsr hdr]
    | ldi =>
      cases eq_of_next h
      rw [loadFrom_peek, afterRead_peek_other _ _ hsr hdr, memRead_snd, afterRead_peek_other s _ hsr hdr]
    | sti => cases hstore
    | _ => cases hread

end MemoryChanges

/-- Settles O47: the first clause is the memory left as it is, the second allows for the poll. -/
theorem memoryChangesOnlyByStoresAndPolls : Obligations.MemoryChangesOnlyByStoresAndPolls := by
  intro i s t h hstore
  exact ⟨exec_sameMem_of_no_access h hstore, fun _ => exec_peek_of_no_store h hstore⟩

/-! ### The fetch after a store (20_memory R53, R56) -/

/-- The fetch at `p` after a store gives what a read of `p` after that store gives. -/
theorem fetch_memWrite_word (a v p : Word) (s : State) :
    (fetch ((memWrite a v s).setPc p)).1 = (memRead p (memWrite a v (s.setPc p))).1 := rfl

/-- Settles O49: a fetch is a read, so it gives back the stored word, or at KBSR the poll's own. -/
theorem fetchSeesTheStoredWord : Obligations.FetchSeesTheStoredWord := by
  intro s a v
  refine ⟨fun ha => ?_, fun b rest hq => ?_, fun hq => ?_⟩ <;> rw [fetch_memWrite_word]
  · exact memRead_memWrite ha v (s.setPc a)
  · exact memRead_kbsr_of_byte (s := memWrite a v (s.setPc Config.kbsr)) hq
  · exact memRead_kbsr_of_empty (s := memWrite a v (s.setPc Config.kbsr)) hq

end Sys2Proof.Proofs
end

section
/-! PROOFS. 30_encoding: the formats and the round trip (R61 to R67), the opcode table (R66, R68, R70), the step (R80) and
what follows the last one (R81). -/

namespace Sys2Proof.Proofs

open Sys2Proof.Machine Sys2Proof.Claims

/-! ### The fields of a word (30_encoding R60 to R65)

The formats come in a few layouts, whatever the opcode: what the decoder reads at a field's place is that field. The sums
of widths are left as they stand in these proofs, since the library's lemmas about `++` are stated with them. -/

section Layouts

variable (op : BitVec 4)

theorem fields_offset9 (r : BitVec 3) (o : BitVec 9) :
    opcodeField (op ++ r ++ o) = op ∧ (op ++ r ++ o).extractLsb' 9 3 = r ∧ (op ++ r ++ o).extractLsb' 0 9 = o := by
  simp [-Nat.reduceAdd, opcodeField, BitVec.extractLsb'_append_eq_of_le, BitVec.extractLsb'_append_eq_of_add_le]

theorem fields_offset6 (r b : BitVec 3) (o : BitVec 6) :
    opcodeField (op ++ r ++ b ++ o) = op ∧ regField (op ++ r ++ b ++ o) 9 = r.toFin ∧
      regField (op ++ r ++ b ++ o) 6 = b.toFin ∧ (op ++ r ++ b ++ o).extractLsb' 0 6 = o := by
  simp [-Nat.reduceAdd, -BitVec.toFin_extractLsb', opcodeField, regField, BitVec.extractLsb'_append_eq_of_le,
    BitVec.extractLsb'_append_eq_of_add_le]

theorem fields_regReg (d a b : BitVec 3) (x : BitVec 2) :
    opcodeField (op ++ d ++ a ++ 0b0#1 ++ x ++ b) = op ∧ (op ++ d ++ a ++ 0b0#1 ++ x ++ b).getLsbD 5 = false ∧
      regField (op ++ d ++ a ++ 0b0#1 ++ x ++ b) 9 = d.toFin ∧ regField (op ++ d ++ a ++ 0b0#1 ++ x ++ b) 6 = a.toFin ∧
      regField (op ++ d ++ a ++ 0b0#1 ++ x ++ b) 0 = b.toFin := by
  simp [-Nat.reduceAdd, -BitVec.toFin_extractLsb', -BitVec.getLsbD_eq_getElem, opcodeField, regField,
    BitVec.getLsbD_append, BitVec.extractLsb'_append_eq_of_le, BitVec.extractLsb'_append_eq_of_add_le]

theorem fields_imm5 (d a : BitVec 3) (i : BitVec 5) :
    opcodeField (op ++ d ++ a ++ 0b1#1 ++ i) = op ∧ (op ++ d ++ a ++ 0b1#1 ++ i).getLsbD 5 = true ∧
      regField (op ++ d ++ a ++ 0b1#1 ++ i) 9 = d.toFin ∧ regField (op ++ d ++ a ++ 0b1#1 ++ i) 6 = a.toFin ∧
      (op ++ d ++ a ++ 0b1#1 ++ i).extractLsb' 0 5 = i := by
  simp [-Nat.reduceAdd, -BitVec.toFin_extractLsb', -BitVec.getLsbD_eq_getElem, opcodeField, regField,
    BitVec.getLsbD_append, BitVec.extractLsb'_append_eq_of_le, BitVec.extractLsb'_append_eq_of_add_le]

theorem fields_offset11 (o : BitVec 11) :
    opcodeField (op ++ 0b1#1 ++ o) = op ∧ (op ++ 0b1#1 ++ o).getLsbD 11 = true ∧
      (op ++ 0b1#1 ++ o).extractLsb' 0 11 = o := by
  simp [-Nat.reduceAdd, -BitVec.getLsbD_eq_getElem, opcodeField, BitVec.getLsbD_append,
    BitVec.extractLsb'_append_eq_of_le, BitVec.extractLsb'_append_eq_of_add_le]

theorem fields_base (x : BitVec 2) (b : BitVec 3) (y : BitVec 6) :
    opcodeField (op ++ 0b0#1 ++ x ++ b ++ y) = op ∧ (op ++ 0b0#1 ++ x ++ b ++ y).getLsbD 11 = false ∧
      regField (op ++ 0b0#1 ++ x ++ b ++ y) 6 = b.toFin := by
  simp [-Nat.reduceAdd, -BitVec.toFin_extractLsb', -BitVec.getLsbD_eq_getElem, opcodeField, regField,
    BitVec.getLsbD_append, BitVec.extractLsb'_append_eq_of_le, BitVec.extractLsb'_append_eq_of_add_le]

theorem fields_vector (x : BitVec 4) (v : Byte) :
    opcodeField (op ++ x ++ v) = op ∧ (op ++ x ++ v).extractLsb' 8 4 = x ∧ (op ++ x ++ v).extractLsb' 0 8 = v := by
  simp [-Nat.reduceAdd, opcodeField, BitVec.extractLsb'_append_eq_of_le, BitVec.extractLsb'_append_eq_of_add_le]

end Layouts

/-! ### Which row a mode bit or a vector selects (30_encoding R63, 44_trap R140, R148) -/

section Selectors

variable {w : Word}

theorem decodeAdd_of_mode_clear (h : w.getLsbD 5 = false) :
    decodeAdd w = .addReg (regField w 9) (regField w 6) (regField w 0) :=
  if_neg (ne_true_of_eq_false h)

theorem decodeAdd_of_mode_set (h : w.getLsbD 5 = true) :
    decodeAdd w = .addImm (regField w 9) (regField w 6) (w.extractLsb' 0 5) :=
  if_pos h

theorem decodeAnd_of_mode_clear (h : w.getLsbD 5 = false) :
    decodeAnd w = .andReg (regField w 9) (regField w 6) (regField w 0) :=
  if_neg (ne_true_of_eq_false h)

theorem decodeAnd_of_mode_set (h : w.getLsbD 5 = true) :
    decodeAnd w = .andImm (regField w 9) (regField w 6) (w.extractLsb' 0 5) :=
  if_pos h

theorem decodeJsr_of_mode_set (h : w.getLsbD 11 = true) : decodeJsr w = .jsr (w.extractLsb' 0 11) :=
  if_pos h

theorem decodeJsr_of_mode_clear (h : w.getLsbD 11 = false) : decodeJsr w = .jsrr (regField w 6) :=
  if_neg (ne_true_of_eq_false h)

theorem decodeTrap_of_vector_getc (h : w.extractLsb' 0 8 = 0x20#8) : decodeTrap w = .getc := by
  simp [decodeTrap, h]

theorem decodeTrap_of_vector_out (h : w.extractLsb' 0 8 = 0x21#8) : decodeTrap w = .out := by
  simp [decodeTrap, h]

theorem decodeTrap_of_vector_puts (h : w.extractLsb' 0 8 = 0x22#8) : decodeTrap w = .puts := by
  simp [decodeTrap, h]

theorem decodeTrap_of_vector_inp (h : w.extractLsb' 0 8 = 0x23#8) : decodeTrap w = .inp := by
  simp [decodeTrap, h]

theorem decodeTrap_of_vector_putsp (h : w.extractLsb' 0 8 = 0x24#8) : decodeTrap w = .putsp := by
  simp [decodeTrap, h]

theorem decodeTrap_of_vector_halt (h : w.extractLsb' 0 8 = 0x25#8) : decodeTrap w = .halt := by
  simp [decodeTrap, h]

theorem decodeTrap_of_unknown_vector {v : Byte} (h : w.extractLsb' 0 8 = v) (hv : isServiceVector v = false) :
    decodeTrap w = .trap (w.extractLsb' 8 4) v := by
  have hne {u : Byte} (hu : isServiceVector u = true) : v ≠ u := by
    rintro rfl
    cases hu.symm.trans hv
  simp only [decodeTrap, h]
  iterate 6 rw [if_neg (hne rfl)]

end Selectors

/-! ### The word of every format decodes to its fields (30_encoding R61 to R67) -/

section Formats

variable (r d a b : BitVec 3)

theorem decode_addReg_word (x : BitVec 2) :
    decode (0b0001#4 ++ d ++ a ++ 0b0#1 ++ x ++ b) = .addReg d.toFin a.toFin b.toFin := by
  obtain ⟨hop, hmode, hd, ha, hb⟩ := fields_regReg 0b0001#4 d a b x
  rw [decode_of_opcode_add hop, decodeAdd_of_mode_clear hmode, hd, ha, hb]

theorem decode_addImm_word (i : BitVec 5) :
    decode (0b0001#4 ++ d ++ a ++ 0b1#1 ++ i) = .addImm d.toFin a.toFin i := by
  obtain ⟨hop, hmode, hd, ha, hi⟩ := fields_imm5 0b0001#4 d a i
  rw [decode_of_opcode_add hop, decodeAdd_of_mode_set hmode, hd, ha, hi]

theorem decode_andReg_word (x : BitVec 2) :
    decode (0b0101#4 ++ d ++ a ++ 0b0#1 ++ x ++ b) = .andReg d.toFin a.toFin b.toFin := by
  obtain ⟨hop, hmode, hd, ha, hb⟩ := fields_regReg 0b0101#4 d a b x
  rw [decode_of_opcode_and hop, decodeAnd_of_mode_clear hmode, hd, ha, hb]

theorem decode_andImm_word (i : BitVec 5) :
    decode (0b0101#4 ++ d ++ a ++ 0b1#1 ++ i) = .andImm d.toFin a.toFin i := by
  obtain ⟨hop, hmode, hd, ha, hi⟩ := fields_imm5 0b0101#4 d a i
  rw [decode_of_opcode_and hop, decodeAnd_of_mode_set hmode, hd, ha, hi]

theorem decode_notReg_word (x : BitVec 6) : decode (0b1001#4 ++ d ++ a ++ x) = .notReg d.toFin a.toFin := by
  obtain ⟨hop, hd, ha, -⟩ := fields_offset6 0b1001#4 d a x
  rw [decode_of_opcode_not hop, hd, ha]

theorem decode_br_word (nzp : BitVec 3) (o : BitVec 9) : decode (0b0000#4 ++ nzp ++ o) = .br nzp o := by
  obtain ⟨hop, hm, ho⟩ := fields_offset9 0b0000#4 nzp o
  rw [decode_of_opcode_br hop, hm, ho]

theorem decode_jmp_word (x : BitVec 3) (y : BitVec 6) : decode (0b1100#4 ++ x ++ b ++ y) = .jmp b.toFin := by
  obtain ⟨hop, -, hb, -⟩ := fields_offset6 0b1100#4 x b y
  rw [decode_of_opcode_jmp hop, hb]

theorem decode_jsr_word (o : BitVec 11) : decode (0b0100#4 ++ 0b1#1 ++ o) = .jsr o := by
  obtain ⟨hop, hmode, ho⟩ := fields_offset11 0b0100#4 o
  rw [decode_of_opcode_jsr_or_jsrr hop, decodeJsr_of_mode_set hmode, ho]

theorem decode_jsrr_word (x : BitVec 2) (y : BitVec 6) :
    decode (0b0100#4 ++ 0b0#1 ++ x ++ b ++ y) = .jsrr b.toFin := by
  obtain ⟨hop, hmode, hb⟩ := fields_base 0b0100#4 x b y
  rw [decode_of_opcode_jsr_or_jsrr hop, decodeJsr_of_mode_clear hmode, hb]

theorem decode_ld_word (o : BitVec 9) : decode (0b0010#4 ++ d ++ o) = .ld d.toFin o := by
  obtain ⟨hop, hd, ho⟩ := fields_offset9 0b0010#4 d o
  rw [decode_of_opcode_ld hop, regField, hd, ho]

theorem decode_ldi_word (o : BitVec 9) : decode (0b1010#4 ++ d ++ o) = .ldi d.toFin o := by
  obtain ⟨hop, hd, ho⟩ := fields_offset9 0b1010#4 d o
  rw [decode_of_opcode_ldi hop, regField, hd, ho]

theorem decode_ldr_word (o : BitVec 6) : decode (0b0110#4 ++ d ++ b ++ o) = .ldr d.toFin b.toFin o := by
  obtain ⟨hop, hd, hb, ho⟩ := fields_offset6 0b0110#4 d b o
  rw [decode_of_opcode_ldr hop, hd, hb, ho]

theorem decode_lea_word (o : BitVec 9) : decode (0b1110#4 ++ d ++ o) = .lea d.toFin o := by
  obtain ⟨hop, hd, ho⟩ := fields_offset9 0b1110#4 d o
  rw [decode_of_opcode_lea hop, regField, hd, ho]

theorem decode_st_word (o : BitVec 9) : decode (0b0011#4 ++ r ++ o) = .st r.toFin o := by
  obtain ⟨hop, hr, ho⟩ := fields_offset9 0b0011#4 r o
  rw [decode_of_opcode_st hop, regField, hr, ho]

theorem decode_sti_word (o : BitVec 9) : decode (0b1011#4 ++ r ++ o) = .sti r.toFin o := by
  obtain ⟨hop, hr, ho⟩ := fields_offset9 0b1011#4 r o
  rw [decode_of_opcode_sti hop, regField, hr, ho]

theorem decode_str_word (o : BitVec 6) : decode (0b0111#4 ++ r ++ b ++ o) = .str r.toFin b.toFin o := by
  obtain ⟨hop, hr, hb, ho⟩ := fields_offset6 0b0111#4 r b o
  rw [decode_of_opcode_str hop, hr, hb, ho]

theorem decode_trap_word (x : BitVec 4) {v : Byte} (hv : isServiceVector v = false) :
    decode (0b1111#4 ++ x ++ v) = .trap x v := by
  obtain ⟨hop, hx, hvect⟩ := fields_vector 0b1111#4 x v
  rw [decode_of_opcode_trap hop, decodeTrap_of_unknown_vector hvect hv, hx]

theorem decode_service_words (x : BitVec 4) :
    decode (0b1111#4 ++ x ++ 0x20#8) = .getc ∧ decode (0b1111#4 ++ x ++ 0x21#8) = .out ∧
      decode (0b1111#4 ++ x ++ 0x22#8) = .puts ∧ decode (0b1111#4 ++ x ++ 0x23#8) = .inp ∧
      decode (0b1111#4 ++ x ++ 0x24#8) = .putsp ∧ decode (0b1111#4 ++ x ++ 0x25#8) = .halt := by
  have htrap (v : Byte) : decode (0b1111#4 ++ x ++ v) = decodeTrap (0b1111#4 ++ x ++ v) :=
    decode_of_opcode_trap (fields_vector 0b1111#4 x v).1
  have hvect (v : Byte) : (0b1111#4 ++ x ++ v).extractLsb' 0 8 = v := (fields_vector 0b1111#4 x v).2.2
  exact ⟨(htrap _).trans (decodeTrap_of_vector_getc (hvect _)), (htrap _).trans (decodeTrap_of_vector_out (hvect _)),
    (htrap _).trans (decodeTrap_of_vector_puts (hvect _)), (htrap _).trans (decodeTrap_of_vector_inp (hvect _)),
    (htrap _).trans (decodeTrap_of_vector_putsp (hvect _)), (htrap _).trans (decodeTrap_of_vector_halt (hvect _))⟩

theorem decode_rti_word (x : BitVec 12) : decode (0b1000#4 ++ x) = .rti x := by
  rw [decode_of_opcode_rti (opcodeField_append _ x), BitVec.extractLsb'_append_eq_right]

theorem decode_res_word (x : BitVec 12) : decode (0b1101#4 ++ x) = .res x := by
  rw [decode_of_opcode_res (opcodeField_append _ x), BitVec.extractLsb'_append_eq_right]

end Formats

/-- BR's mask is its three bits in a row (30_encoding R64). -/
theorem append_mask (op : BitVec 4) (n z p : BitVec 1) : op ++ n ++ z ++ p = op ++ (n ++ z ++ p) := by
  rw [BitVec.append_assoc' (x₂ := n ++ z), BitVec.append_assoc' (x₂ := n)]; rfl

/-- Settles O1: one clause for each format, BR's with the bits of its mask put together. -/
theorem everyFormatDecodesToItsFields : Obligations.EveryFormatDecodesToItsFields :=
  ⟨decode_addReg_word, decode_addImm_word, decode_andReg_word, decode_andImm_word, decode_notReg_word,
    fun n z p o => by rw [append_mask]; exact decode_br_word (n ++ z ++ p) o,
    fun x b y => decode_jmp_word b x y, decode_jsr_word, fun x b y => decode_jsrr_word b x y, decode_ld_word,
    decode_ldi_word, decode_ldr_word, decode_lea_word, decode_st_word, decode_sti_word, decode_str_word,
    fun x _ hv => decode_trap_word x hv, decode_service_words, fun x => ⟨decode_rti_word x, decode_res_word x⟩⟩

/-! ### The round trip -/

/-- The three zeros the encoder emits are a mode bit of 0 and two unused bits (30_encoding R63, R67). -/
theorem append_mode_unused {n : Nat} (w : BitVec n) : w ++ 0b000#3 = w ++ 0b0#1 ++ 0b00#2 :=
  BitVec.append_assoc' (x₁ := w) (x₂ := 0b0#1) (x₃ := 0b00#2)

/-- Settles O2: the encoder emits the format of each instruction, with some values of its unused bits. -/
theorem decodeOfEncodeIsTheInstruction : Obligations.DecodeOfEncodeIsTheInstruction := by
  intro i hi
  cases i with
  | addReg d a b => rw [encode, append_mode_unused]; exact decode_addReg_word (regBits d) (regBits a) (regBits b) 0
  | addImm d a i => exact decode_addImm_word (regBits d) (regBits a) i
  | andReg d a b => rw [encode, append_mode_unused]; exact decode_andReg_word (regBits d) (regBits a) (regBits b) 0
  | andImm d a i => exact decode_andImm_word (regBits d) (regBits a) i
  | notReg d a => exact decode_notReg_word (regBits d) (regBits a) 0b111111#6
  | br nzp o => exact decode_br_word nzp o
  | jmp b => exact decode_jmp_word (regBits b) 0 0
  | jsr o => exact decode_jsr_word o
  | jsrr b => rw [encode, append_mode_unused]; exact decode_jsrr_word (regBits b) 0 0
  | ld d o => exact decode_ld_word (regBits d) o
  | ldi d o => exact decode_ldi_word (regBits d) o
  | ldr d b o => exact decode_ldr_word (regBits d) (regBits b) o
  | lea d o => exact decode_lea_word (regBits d) o
  | st r o => exact decode_st_word (regBits r) o
  | sti r o => exact decode_sti_word (regBits r) o
  | str r b o => exact decode_str_word (regBits r) (regBits b) o
  | trap x v => exact decode_trap_word x (by simpa [Instr.wf] using hi)
  | getc | out | puts | inp | putsp | halt => rfl
  | rti x => exact decode_rti_word x
  | res x => exact decode_res_word x

/-- Settles O4: fixed words, evaluated. -/
theorem writtenOutWordsDecode : Obligations.WrittenOutWordsDecode := by
  unfold Obligations.WrittenOutWordsDecode
  decide

/-! ### The opcode table (30_encoding R66, R68, R70) -/

section Table

/-- A word matches the row of `i` (opcode_table.json). -/
def Matches (w : Word) (i : Instr) : Prop := w &&& tableMask i = tableMatch i

variable {n m : Nat}

theorem and_append_eq (x : BitVec (n + m)) (a : BitVec n) (b : BitVec m) :
    x &&& (a ++ b) = (x.extractLsb' m n &&& a) ++ (x.extractLsb' 0 m &&& b) := by
  rw [← BitVec.and_append, BitVec.extractLsb'_append_extractLsb']

theorem append_eq_append_iff {a a' : BitVec n} {b b' : BitVec m} : a ++ b = a' ++ b' ↔ a = a' ∧ b = b' := by
  refine ⟨fun h => ⟨?_, ?_⟩, fun ⟨ha, hb⟩ => by rw [ha, hb]⟩
  · simpa only [BitVec.extractLsb'_append_eq_left] using congrArg (BitVec.extractLsb' m n) h
  · simpa only [BitVec.extractLsb'_append_eq_right] using congrArg (BitVec.extractLsb' 0 m) h

variable {w : Word} {k : BitVec 4}

/-- A row fixes the opcode, and of the other twelve bits those in its mask. -/
theorem row_iff {mask v : BitVec 12} :
    w &&& (0xF#4 ++ mask) = k ++ v ↔ opcodeField w = k ∧ w.extractLsb' 0 12 &&& mask = v := by
  have hop : opcodeField w &&& 0xF#4 = opcodeField w := BitVec.and_allOnes
  rw [and_append_eq w 0xF#4 mask, append_eq_append_iff, ← opcodeField, hop]

/-- The rows that fix the opcode alone. -/
theorem opcode_row_iff : w &&& 0xF000#16 = k ++ 0#12 ↔ opcodeField w = k := by
  rw [show 0xF000#16 = 0xF#4 ++ 0#12 from rfl, row_iff]
  simp

/-- The rows that fix the opcode and a mode bit (30_encoding R63). -/
theorem mode_row_iff (i : Fin 12) (c : Bool) :
    w &&& (0xF#4 ++ BitVec.twoPow 12 i) = k ++ (if c then BitVec.twoPow 12 i else 0#12) ↔
      opcodeField w = k ∧ w.getLsbD i = c := by
  have hbit : (w.extractLsb' 0 12).getLsbD i = w.getLsbD i := by simp
  have hone : BitVec.twoPow 12 i ≠ 0#12 := fun h => by
    simpa using congrArg (·.getLsbD i) h
  rw [row_iff, BitVec.and_twoPow, hbit]
  cases w.getLsbD i <;> cases c <;> simp [hone, hone.symm]

/-- The rows of the services, which fix the opcode and the vector. -/
theorem vector_row_iff {v : Byte} :
    w &&& 0xF0FF#16 = k ++ (0#4 ++ v) ↔ opcodeField w = k ∧ w.extractLsb' 0 8 = v := by
  have hvect : (w.extractLsb' 0 12).extractLsb' 0 8 &&& 0xFF#8 = w.extractLsb' 0 8 :=
    BitVec.and_allOnes.trans (BitVec.extractLsb'_extractLsb'_of_le (by decide))
  rw [show 0xF0FF#16 = 0xF#4 ++ (0#4 ++ 0xFF#8) from rfl, row_iff, and_append_eq (w.extractLsb' 0 12) 0#4 0xFF#8,
    append_eq_append_iff, hvect]
  simp

/-- A word of the row of a service decodes to what its vector selects. -/
theorem decode_of_vector_row {v : Byte} {i : Instr} (hi : w.extractLsb' 0 8 = v → decodeTrap w = i)
    (h : w &&& 0xF0FF#16 = 15#4 ++ (0#4 ++ v)) : decode w = i := by
  obtain ⟨hop, hv⟩ := vector_row_iff.mp h
  exact (decode_of_opcode_trap hop).trans (hi hv)

theorem opcode_cases (op : BitVec 4) : op = 0#4 ∨ op = 1#4 ∨ op = 2#4 ∨ op = 3#4 ∨ op = 4#4 ∨ op = 5#4 ∨ op = 6#4 ∨
    op = 7#4 ∨ op = 8#4 ∨ op = 9#4 ∨ op = 10#4 ∨ op = 11#4 ∨ op = 12#4 ∨ op = 13#4 ∨ op = 14#4 ∨ op = 15#4 := by
  revert op
  decide

/-- A TRAP word matches the row of its service, or the row TRAP. -/
theorem decodeTrap_matches (h : opcodeField w = 15#4) : Matches w (decodeTrap w) := by
  simp only [decodeTrap]
  repeat' split
  iterate 6 exact vector_row_iff.mpr ⟨h, ‹_›⟩
  exact opcode_row_iff.mpr h

/-- Every word matches the row of the instruction it decodes to. -/
theorem decode_matches (w : Word) : Matches w (decode w) := by
  rcases opcode_cases (opcodeField w) with h | h | h | h | h | h | h | h | h | h | h | h | h | h | h | h
  · rw [decode_of_opcode_br h]; exact opcode_row_iff.mpr h
  · rw [decode_of_opcode_add h]
    cases hm : w.getLsbD 5 with
    | false => rw [decodeAdd_of_mode_clear hm]; exact (mode_row_iff 5 false).mpr ⟨h, hm⟩
    | true => rw [decodeAdd_of_mode_set hm]; exact (mode_row_iff 5 true).mpr ⟨h, hm⟩
  · rw [decode_of_opcode_ld h]; exact opcode_row_iff.mpr h
  · rw [decode_of_opcode_st h]; exact opcode_row_iff.mpr h
  · rw [decode_of_opcode_jsr_or_jsrr h]
    cases hm : w.getLsbD 11 with
    | false => rw [decodeJsr_of_mode_clear hm]; exact (mode_row_iff 11 false).mpr ⟨h, hm⟩
    | true => rw [decodeJsr_of_mode_set hm]; exact (mode_row_iff 11 true).mpr ⟨h, hm⟩
  · rw [decode_of_opcode_and h]
    cases hm : w.getLsbD 5 with
    | false => rw [decodeAnd_of_mode_clear hm]; exact (mode_row_iff 5 false).mpr ⟨h, hm⟩
    | true => rw [decodeAnd_of_mode_set hm]; exact (mode_row_iff 5 true).mpr ⟨h, hm⟩
  · rw [decode_of_opcode_ldr h]; exact opcode_row_iff.mpr h
  · rw [decode_of_opcode_str h]; exact opcode_row_iff.mpr h
  · rw [decode_of_opcode_rti h]; exact opcode_row_iff.mpr h
  · rw [decode_of_opcode_not h]; exact opcode_row_iff.mpr h
  · rw [decode_of_opcode_ldi h]; exact opcode_row_iff.mpr h
  · rw [decode_of_opcode_sti h]; exact opcode_row_iff.mpr h
  · rw [decode_of_opcode_jmp h]; exact opcode_row_iff.mpr h
  · rw [decode_of_opcode_res h]; exact opcode_row_iff.mpr h
  · rw [decode_of_opcode_lea h]; exact opcode_row_iff.mpr h
  · rw [decode_of_opcode_trap h]; exact decodeTrap_matches h

/-- The fixed bits of a row but TRAP's are all that the decoder needs to find that row. -/
theorem tableMatch_decode_of_matches {i : Instr} (h : Matches w i) (hi : ∀ x v, i ≠ .trap x v) :
    tableMatch i = tableMatch (decode w) := by
  cases i with
  | addReg =>
    obtain ⟨hop, hm⟩ := (mode_row_iff (k := 1#4) 5 false).mp h
    rw [decode_of_opcode_add hop, decodeAdd_of_mode_clear hm]; rfl
  | addImm =>
    obtain ⟨hop, hm⟩ := (mode_row_iff (k := 1#4) 5 true).mp h
    rw [decode_of_opcode_add hop, decodeAdd_of_mode_set hm]; rfl
  | andReg =>
    obtain ⟨hop, hm⟩ := (mode_row_iff (k := 5#4) 5 false).mp h
    rw [decode_of_opcode_and hop, decodeAnd_of_mode_clear hm]; rfl
  | andImm =>
    obtain ⟨hop, hm⟩ := (mode_row_iff (k := 5#4) 5 true).mp h
    rw [decode_of_opcode_and hop, decodeAnd_of_mode_set hm]; rfl
  | notReg => rw [decode_of_opcode_not (opcode_row_iff.mp h)]; rfl
  | br => rw [decode_of_opcode_br (opcode_row_iff.mp h)]; rfl
  | jmp => rw [decode_of_opcode_jmp (opcode_row_iff.mp h)]; rfl
  | jsr =>
    obtain ⟨hop, hm⟩ := (mode_row_iff (k := 4#4) 11 true).mp h
    rw [decode_of_opcode_jsr_or_jsrr hop, decodeJsr_of_mode_set hm]; rfl
  | jsrr =>
    obtain ⟨hop, hm⟩ := (mode_row_iff (k := 4#4) 11 false).mp h
    rw [decode_of_opcode_jsr_or_jsrr hop, decodeJsr_of_mode_clear hm]; rfl
  | ld => rw [decode_of_opcode_ld (opcode_row_iff.mp h)]; rfl
  | ldi => rw [decode_of_opcode_ldi (opcode_row_iff.mp h)]; rfl
  | ldr => rw [decode_of_opcode_ldr (opcode_row_iff.mp h)]; rfl
  | lea => rw [decode_of_opcode_lea (opcode_row_iff.mp h)]; rfl
  | st => rw [decode_of_opcode_st (opcode_row_iff.mp h)]; rfl
  | sti => rw [decode_of_opcode_sti (opcode_row_iff.mp h)]; rfl
  | str => rw [decode_of_opcode_str (opcode_row_iff.mp h)]; rfl
  | trap x v => exact absurd rfl (hi x v)
  | getc => rw [decode_of_vector_row decodeTrap_of_vector_getc h]
  | out => rw [decode_of_vector_row decodeTrap_of_vector_out h]
  | puts => rw [decode_of_vector_row decodeTrap_of_vector_puts h]
  | inp => rw [decode_of_vector_row decodeTrap_of_vector_inp h]
  | putsp => rw [decode_of_vector_row decodeTrap_of_vector_putsp h]
  | halt => rw [decode_of_vector_row decodeTrap_of_vector_halt h]
  | rti => rw [decode_of_opcode_rti (opcode_row_iff.mp h)]; rfl
  | res => rw [decode_of_opcode_res (opcode_row_iff.mp h)]; rfl

end Table

/-- Settles O3: the row TRAP is every TRAP word's, and every other row is that of the instruction its words decode to. -/
theorem decodeAgreesWithTheOpcodeTable : Obligations.DecodeAgreesWithTheOpcodeTable := by
  intro w
  refine ⟨decode_wf w, decode_matches w, fun i _ h => ?_⟩
  cases i with
  | trap => exact .inr ⟨h, rfl⟩
  | _ => exact .inl (tableMatch_decode_of_matches h nofun)

/-! ### The step (30_encoding R80) -/

/-- Settles O42: the fetch is the read at PC and the increment of PC. -/
theorem stepRunsTheDecodedInstruction : Obligations.StepRunsTheDecodedInstruction := by
  rintro s w i hst hrun hwait rfl rfl
  exact step_of_enabled ((enabled_iff s).mpr ⟨hrun, hst⟩) hwait

/-! ### A wait that the host lifts (00_scope R16; D19, log 3) -/

section LiftedWait

variable {s t : State}

/-- The state in which the service `w` reads its byte: after trap entry, and for IN after the prompt. -/
def enterInput : InputWait → State → State
  | .getc, s => trapEntry s
  | .inp, s => (trapEntry s).outWrite Config.inPrompt

theorem enterInput_inq (w : InputWait) (s : State) : (enterInput w s).inq = s.inq := by
  cases w <;> rfl

theorem enterInput_enabled (w : InputWait) (s : State) : (enterInput w s).enabled = s.enabled := by
  cases w <;> rfl

theorem enterInput_supplied (w : InputWait) (s : State) (q : List Byte) :
    enterInput w { s with inq := q } = { enterInput w s with inq := q } := by
  cases w <;> rfl

theorem isTrap_of_wait {i : Instr} (h : exec i s = .next t) (hs : s.waiting = none) (ht : t.waiting ≠ none) :
    i.isTrap = true := by
  refine Bool.eq_true_of_not_eq_false fun htrap => ht ?_
  obtain ⟨-, -, -, hwait, -⟩ := exec_plain_frame htrap h
  exact hwait.trans hs

/-- An instruction that begins a wait is an input service: from any state it enters the service and reads input. -/
theorem exec_of_wait {i : Instr} (hi : i.wf = true) (h : exec i s = .next t) (hs : s.waiting = none)
    (ht : t.waiting ≠ none) : ∃ w, ∀ u, exec i u = .next (readInput w (enterInput w u)) := by
  have htrap := isTrap_of_wait h hs ht
  cases i with
  | getc => exact ⟨.getc, fun _ => rfl⟩
  | inp => exact ⟨.inp, fun _ => rfl⟩
  | out | halt => cases eq_of_next h; exact absurd hs ht
  | puts | putsp => obtain ⟨bs, rfl⟩ := writeString_next h; exact absurd hs ht
  | trap x v =>
    rcases exec_trap_cases x v s with ⟨rfl, -⟩ | ⟨rfl, -⟩ | ⟨rfl, -⟩ | ⟨rfl, -⟩ | ⟨rfl, -⟩ | ⟨rfl, -⟩ | ⟨-, e⟩
    iterate 6 cases hi
    cases eq_of_next (e.symm.trans h)
    exact absurd hs ht
  | _ => cases htrap

theorem fetch_enabled (s : State) : (fetch s).2.enabled = s.enabled := by
  simp [State.enabled]

/-- A fetch from KBSR gives no TRAP word: it reads the poll's own value (20_memory R56). -/
theorem decode_fetch_kbsr_isTrap (h : s.pc = Config.kbsr) : (decode (fetch s).1).isTrap = false := by
  have hword : (fetch s).1 = (memRead Config.kbsr s).1 := by rw [← h]; rfl
  rw [hword]
  rcases memRead_kbsr s with e | e <;> rw [e] <;> rfl

theorem fetch_of_ne (h : s.pc ≠ Config.kbsr) : fetch s = (s.peek s.pc, s.setPc (s.pc + 1#16)) := by
  simp only [fetch, memRead, afterRead_of_ne h]

/-- A fetch from elsewhere than KBSR neither reads nor takes input. -/
theorem fetch_supplied (h : s.pc ≠ Config.kbsr) (q : List Byte) :
    fetch { s with inq := q } = ((fetch s).1, { (fetch s).2 with inq := q }) := by
  rw [fetch_of_ne h]
  exact fetch_of_ne (s := { s with inq := q }) h

/-- Bytes supplied during a run to a core whose queue is empty are its queue. -/
theorem hostAct_supply_of_empty (h : s.enabled = true) (hq : s.inq = []) (bs : List Byte) :
    hostAct (.supply bs) s = { s with inq := bs } := by
  rw [hostAct, if_pos ((enabled_iff s).mp h).2, hq, List.nil_append]

/-- A lifted wait reads its byte in the state that waited. -/
theorem step_of_lifted (h : s.enabled = true) (hq : s.inq = []) (w : InputWait) (b : Byte) (rest : List Byte) :
    step (hostAct (.supply (b :: rest)) { s with waiting := some w }) =
      .next (readInput w { s with inq := b :: rest }) := by
  rw [hostAct_supply_of_empty (s := { s with waiting := some w }) h hq]
  exact step_of_waiting (s := { s with inq := b :: rest, waiting := some w }) h rfl

/-- An input service that is fetched from elsewhere than KBSR reads the bytes supplied before the fetch. -/
theorem step_of_supplied (h : s.enabled = true) (hq : s.inq = []) (hs : s.waiting = none) (hpc : s.pc ≠ Config.kbsr)
    {w : InputWait} (hservice : ∀ u, exec (decode (fetch s).1) u = .next (readInput w (enterInput w u))) (bs : List Byte) :
    step (hostAct (.supply bs) s) = .next (readInput w { enterInput w (fetch s).2 with inq := bs }) := by
  rw [hostAct_supply_of_empty h hq, step_of_enabled (s := { s with inq := bs }) h hs, fetch_supplied hpc, hservice,
    enterInput_supplied]

end LiftedWait

/-- Settles O44: the fetch that led to the wait is no poll, so the bytes appended before it reach the service unread, and
the service reads the first of them in the state in which it would have waited. -/
theorem liftedWaitEqualsInputAlreadyThere : Obligations.LiftedWaitEqualsInputAlreadyThere := by
  intro s t b rest hs h ht
  obtain ⟨henabled, ⟨w, -, -, hw, -⟩ | ⟨-, hexec⟩⟩ := step_next h
  · cases hs.symm.trans hw
  have hfs : (fetch s).2.waiting = none := (fetch_waiting s).trans hs
  have hpc : s.pc ≠ Config.kbsr := fun hpc => by
    cases (decode_fetch_kbsr_isTrap hpc).symm.trans (isTrap_of_wait hexec hfs ht)
  obtain ⟨w, hservice⟩ := exec_of_wait (decode_wf _) hexec hfs ht
  cases eq_of_next ((hservice _).symm.trans hexec)
  obtain ⟨hq, hwaits⟩ := readInput_waits ht
  have henters : (enterInput w (fetch s).2).enabled = true := by
    rw [enterInput_enabled, fetch_enabled, henabled]
  have hsq : s.inq = [] := by rwa [enterInput_inq, fetch_inq, afterRead_of_ne hpc] at hq
  rw [hwaits, step_of_lifted henters hq, step_of_supplied henabled hsq hs hpc hservice]

/-! ### After the last step (30_encoding R81) -/

/-- There is no next state from one whose run is over. -/
theorem step_ne_next_of_ended {t : State} (h : t.running = false ∨ t.status ≠ .running) (u : State) :
    step t ≠ .next u := by
  intro hstep
  obtain ⟨hrun, hst⟩ := (enabled_iff t).mp (step_next hstep).1
  rcases h with h | h
  · cases h.symm.trans hrun
  · exact h hst

/-- Settles O39: HALT clears `running`, and RTI, RES and an unknown vector leave a fatal status. -/
theorem noStepAfterTheRunEnds : Obligations.NoStepAfterTheRunEnds := by
  refine ⟨fun s => ⟨_, rfl, rfl, step_ne_next_of_ended (.inl rfl)⟩, ?_⟩
  rintro i s (⟨x, rfl | rfl⟩ | ⟨x, v, rfl, hv⟩)
  · exact ⟨_, rfl, step_ne_next_of_ended (.inr nofun)⟩
  · exact ⟨_, rfl, step_ne_next_of_ended (.inr nofun)⟩
  · rcases exec_trap_cases x v s with ⟨rfl, -⟩ | ⟨rfl, -⟩ | ⟨rfl, -⟩ | ⟨rfl, -⟩ | ⟨rfl, -⟩ | ⟨rfl, -⟩ | ⟨-, e⟩
    iterate 6 cases hv
    exact ⟨_, e, step_ne_next_of_ended (.inr nofun)⟩

end Sys2Proof.Proofs
end

section
/-! PROOFS. 40_alu: ADD (R101, R102), AND (R103, R104), NOT (R105), each with the flag rule (R100) through
`writeResult_onlyResult`: what is left of each is the value of its result. -/

namespace Sys2Proof.Proofs

open Sys2Proof.Machine Sys2Proof.Claims

/-! ### ADD (40_alu R101, R102) -/

/-- Settles O12: the sum of two words is modulo 65536, and so is a word plus a sign-extended field. -/
theorem addResult : Obligations.AddResult := fun s dr sr1 sr2 imm5 =>
  ⟨⟨_, _, rfl, writeResult_onlyResult dr (s.reg sr1 + s.reg sr2) s, BitVec.toNat_add (s.reg sr1) (s.reg sr2)⟩,
    ⟨_, _, rfl, writeResult_onlyResult dr (s.reg sr1 + sext imm5) s, add_sext_toNat (by decide) (s.reg sr1) imm5⟩⟩

/-! ### AND (40_alu R103, R104) -/

/-- Bit `i` of a sign-extended field: the field's own bit inside it, its highest bit above (00_scope R10). -/
theorem getLsbD_sext {n i : Nat} (hn : 0 < n) (hn16 : n ≤ 16) (f : BitVec n) (hi : i < 16) :
    (sext f).getLsbD i = f.getLsbD (min i (n - 1)) := by
  have hbit := getLsbD_sext_setWidth hn (f.setWidth 16) hi
  rwa [BitVec.setWidth_setWidth_of_le f hn16, BitVec.setWidth_eq, BitVec.getLsbD_setWidth,
    decide_eq_true (Nat.lt_of_le_of_lt (Nat.min_le_left i (n - 1)) hi), Bool.true_and] at hbit

/-- For every `k`: from bit 16 up both sides are 0 with the word. -/
theorem getLsbD_and_sext {n : Nat} (hn : 0 < n) (hn16 : n ≤ 16) (w : Word) (f : BitVec n) (k : Nat) :
    (w &&& sext f).getLsbD k = (w.getLsbD k && f.getLsbD (min k (n - 1))) := by
  rw [BitVec.getLsbD_and]
  rcases Nat.lt_or_ge k 16 with hk | hk
  · rw [getLsbD_sext hn hn16 f hk]
  · rw [BitVec.getLsbD_of_ge w k hk, Bool.false_and, Bool.false_and]

/-- Settles O13: a bitwise and is taken bit by bit, and bit 4 of the immediate stands for all above it. -/
theorem andResult : Obligations.AndResult := fun s dr sr1 sr2 imm5 =>
  ⟨⟨_, _, rfl, writeResult_onlyResult dr (s.reg sr1 &&& s.reg sr2) s, fun _ => BitVec.getLsbD_and⟩,
    ⟨_, _, rfl, writeResult_onlyResult dr (s.reg sr1 &&& sext imm5) s,
      getLsbD_and_sext (by decide) (by decide) (s.reg sr1) imm5⟩⟩

/-! ### NOT (40_alu R105) -/

/-- Settles O14: the complement of a word is what it lacks to 65535. -/
theorem notResult : Obligations.NotResult := fun s dr sr =>
  ⟨_, _, rfl, writeResult_onlyResult dr (~~~ s.reg sr) s, BitVec.toNat_not⟩

end Sys2Proof.Proofs
end

section
/-! PROOFS. 41_control: BR (R110), JMP (R112), JSR (R113), JSRR (R114), and that nothing else moves PC (R115). Each
transfer is `State.setPc` to its `transferTarget`, of the state it starts in or of that state with R7 linked. -/

namespace Sys2Proof.Proofs

open Sys2Proof.Machine Sys2Proof.Claims

/-! ### A change of PC, with and without the link -/

theorem setPc_onlyPc (target : Word) (s : State) : OnlyPc target s (s.setPc target) :=
  ⟨rfl, rfl, fun _ => rfl, ⟨rfl, rfl⟩, rfl, rfl, rfl⟩

/-- A general register is none of the parts that `OnlyPc` keeps. -/
theorem setReg_setPc_onlyPc (r : Reg) (v target : Word) (s : State) : OnlyPc target s ((s.setReg r v).setPc target) :=
  setPc_onlyPc target (s.setReg r v)

theorem setPc_linked (target : Word) (s : State) : Linked s ((s.setReg 7 s.pc).setPc target) :=
  ⟨State.setReg_reg_self s 7 s.pc, fun _ hq => State.setReg_reg_other s hq s.pc⟩

/-! ### The four transfers as changes of PC -/

section Transfers

variable {i : Instr} {s t : State}

/-- BR's test in the words of the statements: the mask names the flag that COND holds (30_encoding R64, D2, D4). -/
theorem branchTaken_iff (nzp : BitVec 3) (c : Cond) :
    branchTaken nzp c = true ↔ (nzp.getLsbD 2 = true ∧ c = .neg) ∨ (nzp.getLsbD 1 = true ∧ c = .zero) ∨
      (nzp.getLsbD 0 = true ∧ c = .pos) := by
  rw [branchTaken_eq]
  cases c <;> simp

theorem exec_br (nzp : BitVec 3) (off9 : BitVec 9) (s : State) :
    exec (.br nzp off9) s = .next (s.setPc (transferTarget (.br nzp off9) s)) := by
  simp only [exec, execBr, transferTarget, branchTaken_iff]
  split <;> rfl

theorem exec_jmp (baseR : Reg) (s : State) :
    exec (.jmp baseR) s = .next (s.setPc (transferTarget (.jmp baseR) s)) := rfl

theorem exec_jsr (off11 : BitVec 11) (s : State) :
    exec (.jsr off11) s = .next ((s.setReg 7 s.pc).setPc (transferTarget (.jsr off11) s)) := rfl

/-- The base is read after the link (D16). -/
theorem exec_jsrr (baseR : Reg) (s : State) :
    exec (.jsrr baseR) s = .next ((s.setReg 7 s.pc).setPc (transferTarget (.jsrr baseR) s)) := by
  rw [transferTarget, ← State.setReg_reg]; rfl

theorem exec_onlyPc_of_transfer (hi : i.transfersControl = true) (s : State) :
    ∃ t, exec i s = .next t ∧ OnlyPc (transferTarget i s) s t := by
  cases i with
  | br nzp off9 => exact ⟨_, exec_br nzp off9 s, setPc_onlyPc _ s⟩
  | jmp baseR => exact ⟨_, exec_jmp baseR s, setPc_onlyPc _ s⟩
  | jsr off11 => exact ⟨_, exec_jsr off11 s, setReg_setPc_onlyPc 7 s.pc _ s⟩
  | jsrr baseR => exact ⟨_, exec_jsrr baseR s, setReg_setPc_onlyPc 7 s.pc _ s⟩
  | _ => cases hi

/-- An instruction that is no transfer leaves PC where the fetch increment left it (41_control R115). -/
theorem exec_pc_of_no_transfer (hi : i.transfersControl = false) (h : exec i s = .next t) : t.pc = s.pc := by
  cases htrap : i.isTrap with
  | true =>
    obtain ⟨hpc, -⟩ := exec_trap_frame htrap h
    exact hpc
  | false =>
    cases i with
    | br | jmp | jsr | jsrr => cases hi
    | trap | getc | out | puts | inp | putsp | halt => cases htrap
    | addReg | addImm | andReg | andImm | notReg | lea | st | str | rti | res => cases eq_of_next h; rfl
    | ld | ldi | ldr | sti => cases eq_of_next h; simp [loadFrom]

end Transfers

/-- Settles O46: a transfer leaves the run as it was and PC at the target, so the next step fetches there. -/
theorem pcChangesOnlyByControlTransfer : Obligations.PcChangesOnlyByControlTransfer := by
  refine ⟨fun i s hi => ?_, fun _ _ _ => exec_pc_of_no_transfer⟩
  obtain ⟨t, hexec, hpc, -, -, -, hrun, hst, hwait⟩ := exec_onlyPc_of_transfer hi s
  refine ⟨t, hexec, hpc, fun hstatus hrunning hwaiting => ?_⟩
  rw [← hpc]
  exact step_of_enabled ((enabled_iff t).mpr ⟨hrun.trans hrunning, hst.trans hstatus⟩) (hwait.trans hwaiting)

/-! ### BR, JMP, JSR, JSRR (41_control R110, R112, R113, R114) -/

/-- Settles O15: the target of BR is PC plus the offset where the mask names the flag, and PC itself elsewhere. -/
theorem branchResult : Obligations.BranchResult := by
  intro s nzp off9
  refine ⟨_, _, exec_br nzp off9 s, fun _ => rfl, setPc_onlyPc _ s, fun htaken => ?_, fun hnot => if_neg hnot⟩
  rw [transferTarget, if_pos htaken]
  exact add_sext_toNat (by decide) s.pc off9

/-- Settles O16: JMP is a change of PC. -/
theorem jumpResult : Obligations.JumpResult := fun s baseR =>
  ⟨_, exec_jmp baseR s, fun _ => rfl, setPc_onlyPc (s.reg baseR) s⟩

/-- Settles O17: JSR is a change of PC with the link, which the target does not read. -/
theorem jsrResult : Obligations.JsrResult := fun s off11 =>
  ⟨_, _, exec_jsr off11 s, setPc_linked _ s, setReg_setPc_onlyPc 7 s.pc _ s, add_sext_toNat (by decide) s.pc off11⟩

/-- Settles O18: JSRR is a change of PC with the link, which the target reads where the base is R7. -/
theorem jsrrResult : Obligations.JsrrResult := fun s baseR =>
  ⟨_, exec_jsrr baseR s, setPc_linked _ s, setReg_setPc_onlyPc 7 s.pc _ s⟩

end Sys2Proof.Proofs
end

section
/-! PROOFS. 42_load: LD (R120), LDI (R121), LDR (R122), LEA (R123). A load is `loadFrom` an address, which is one read by
the contract and the writing of its value; `eq_add_sext` says which word that address is. -/

namespace Sys2Proof.Proofs

open Sys2Proof.Machine Sys2Proof.Claims

/-! ### A load from an address -/

/-- What a load leaves is what its read left and the value read as the result. -/
theorem loadFrom_loadsInto (dr : Reg) (ea : Word) (s : State) :
    LoadsInto dr (memRead ea s).1 (memRead ea s).2 (loadFrom dr ea s) :=
  writeResult_onlyResult dr (memRead ea s).1 (memRead ea s).2

/-- A load is one read by the contract, then the writing of the value it gave. -/
theorem loadFrom_reads_then_loads (dr : Reg) (ea : Word) (s : State) :
    ∃ r v, ReadsCell ea v s r ∧ LoadsInto dr v r (loadFrom dr ea s) :=
  ⟨_, _, memRead_readsCell ea s, loadFrom_loadsInto dr ea s⟩

/-! ### LD, LDI, LDR, LEA (42_load R120 to R123) -/

/-- Settles O19: LD is a load from PC plus the offset. -/
theorem ldResult : Obligations.LdResult := by
  intro s dr off9 ea hea
  obtain rfl : ea = s.pcRelative off9 := eq_add_sext (by decide) hea
  obtain ⟨r, v, hread, hload⟩ := loadFrom_reads_then_loads dr (s.pcRelative off9) s
  exact ⟨_, r, v, rfl, hread, hload⟩

/-- Settles O20: LDI is a load from the pointer, in the state that the read of the pointer left. -/
theorem ldiResult : Obligations.LdiResult := by
  intro s dr off9 ea hea
  obtain rfl : ea = s.pcRelative off9 := eq_add_sext (by decide) hea
  have hptr := memRead_readsCell (s.pcRelative off9) s
  obtain ⟨r, v, hread, hload⟩ :=
    loadFrom_reads_then_loads dr (memRead (s.pcRelative off9) s).1 (memRead (s.pcRelative off9) s).2
  exact ⟨_, _, r, _, v, rfl, hptr, hread, hload⟩

/-- Settles O21: LDR is a load from the base plus the offset, the base taken before the destination is written. -/
theorem ldrResult : Obligations.LdrResult := by
  intro s dr baseR off6 ea hea
  obtain rfl : ea = s.baseOffset baseR off6 := eq_add_sext (by decide) hea
  obtain ⟨r, v, hread, hload⟩ := loadFrom_reads_then_loads dr (s.baseOffset baseR off6) s
  exact ⟨_, r, v, rfl, hread, hload⟩

/-- Settles O22: the result of LEA is the address itself. -/
theorem leaResult : Obligations.LeaResult := fun s dr off9 =>
  ⟨_, _, rfl, writeResult_onlyResult dr (s.pcRelative off9) s, add_sext_toNat (by decide) s.pc off9⟩

end Sys2Proof.Proofs
end

section
/-! PROOFS. 43_store: ST (R130), STI (R131), STR (R132), and what every store leaves alone (R133). A store is `memWrite` at
an address; STI takes that address from one read by the contract, and the store stands in the state which that read left. -/

namespace Sys2Proof.Proofs

open Sys2Proof.Machine Sys2Proof.Claims

/-! ### Each form is one store -/

section Stores

variable {s r t : State} {a p v : Word}

theorem exec_st_storesAt (sr : Reg) (off9 : BitVec 9) (h : exec (.st sr off9) s = .next t) :
    StoresAt (s.pcRelative off9) (s.reg sr) s t := by
  cases eq_of_next h
  exact memWrite_storesAt (s.pcRelative off9) (s.reg sr) s

theorem exec_str_storesAt (sr baseR : Reg) (off6 : BitVec 6) (h : exec (.str sr baseR off6) s = .next t) :
    StoresAt (s.baseOffset baseR off6) (s.reg sr) s t := by
  cases eq_of_next h
  exact memWrite_storesAt (s.baseOffset baseR off6) (s.reg sr) s

/-- The read of the pointer leaves the registers, so the word STI stores is the register as it was before that read. -/
theorem exec_sti_storesAt (sr : Reg) (off9 : BitVec 9) (h : exec (.sti sr off9) s = .next t) :
    StoresAt (memRead (s.pcRelative off9) s).1 (s.reg sr) (memRead (s.pcRelative off9) s).2 t := by
  cases eq_of_next h
  rw [← afterRead_reg s (s.pcRelative off9) sr]
  exact memWrite_storesAt (memRead (s.pcRelative off9) s).1 _ (memRead (s.pcRelative off9) s).2

/-! ### What a store leaves alone (43_store R133) -/

theorem storesAt_frame (h : StoresAt a v s t) :
    SameRegs s t ∧ t.cond = s.cond ∧ t.pc = s.pc ∧ t.outq = s.outq ∧ SameRun s t ∧
      t.peek a = v ∧ MemBut a s t ∧ t.inq = s.inq := by
  obtain ⟨hcell, hbut, hregs, hpc, hcond, ⟨hinq, houtq⟩, hrun⟩ := h
  exact ⟨hregs, hcond, hpc, houtq, hrun, hcell, hbut, hinq⟩

/-- A store at an address that was read touches that cell, and the read at most KBSR, KBDR and the queue, by its poll. -/
theorem storesAt_frame_of_readsCell (hread : ReadsCell a p s r) (hstore : StoresAt p v r t) :
    SameRegs s t ∧ t.cond = s.cond ∧ t.pc = s.pc ∧ t.outq = s.outq ∧ SameRun s t ∧
      t.peek p = v ∧ MemBut p r t ∧ t.inq = r.inq ∧
      (a ≠ Config.kbsr → MemBut p s t ∧ t.inq = s.inq) ∧
      ∀ b, b ≠ p → b ≠ Config.kbsr → b ≠ Config.kbdr → t.peek b = s.peek b := by
  obtain ⟨hquiet, -, -, hothers, hregs, hpc, hcond, houtq, hrunning, hstatus, hwaiting⟩ := hread
  obtain ⟨hregs', hcond', hpc', houtq', ⟨hrunning', hstatus', hwaiting'⟩, hcell, hbut, hinq⟩ := storesAt_frame hstore
  refine ⟨fun q => (hregs' q).trans (hregs q), hcond'.trans hcond, hpc'.trans hpc, houtq'.trans houtq,
    ⟨hrunning'.trans hrunning, hstatus'.trans hstatus, hwaiting'.trans hwaiting⟩, hcell, hbut, hinq,
    fun ha => ?_, fun b hb hsr hdr => (hbut b hb).trans (hothers b hsr hdr)⟩
  obtain ⟨-, hmem, hqueue⟩ := hquiet ha
  exact ⟨fun b hb => (hbut b hb).trans (hmem b), hinq.trans hqueue⟩

end Stores

/-! ### ST, STI, STR (43_store R130 to R133) -/

/-- Settles O23: ST stores at PC plus the offset. -/
theorem stResult : Obligations.StResult := by
  intro s sr off9 ea hea
  obtain rfl : ea = s.pcRelative off9 := eq_add_sext (by decide) hea
  exact ⟨_, rfl, exec_st_storesAt sr off9 rfl⟩

/-- Settles O24: STI stores at the word read from PC plus the offset, in the state that this read left. -/
theorem stiResult : Obligations.StiResult := by
  intro s sr off9 ea hea
  obtain rfl : ea = s.pcRelative off9 := eq_add_sext (by decide) hea
  exact ⟨_, _, _, rfl, memRead_readsCell (s.pcRelative off9) s, exec_sti_storesAt sr off9 rfl⟩

/-- Settles O25: STR stores at the base plus the offset. -/
theorem strResult : Obligations.StrResult := by
  intro s sr baseR off6 ea hea
  obtain rfl : ea = s.baseOffset baseR off6 := eq_add_sext (by decide) hea
  exact ⟨_, rfl, exec_str_storesAt sr baseR off6 rfl⟩

/-- Settles O26: ST and STR are one store; STI is one read by the contract and one store, whose frames compose. -/
theorem storesWriteWholeWordsAndNothingElse : Obligations.StoresWriteWholeWordsAndNothingElse := by
  intro i s t hstore h
  cases i with
  | st sr off9 => exact storesAt_frame (exec_st_storesAt sr off9 h)
  | str sr baseR off6 => exact storesAt_frame (exec_str_storesAt sr baseR off6 h)
  | sti sr off9 =>
    exact storesAt_frame_of_readsCell (memRead_readsCell (s.pcRelative off9) s) (exec_sti_storesAt sr off9 h)
  | _ => cases hstore

end Sys2Proof.Proofs
end

section
/-! PROOFS. 44_trap: the services GETC and IN (R141, R144), OUT (R142), PUTS and PUTSP (R143, R145), HALT (R146), the unknown
vector (R147) and the choice by the vector (R140, R148). Every service starts from trap entry, so each is what
`OnlyOutput` says of its output and, for the input services and HALT, what follows it. -/

namespace Sys2Proof.Proofs

open Sys2Proof.Machine Sys2Proof.Claims

/-! ### Trap entry and the output of a service -/

theorem trapEntry_linked (s : State) : Linked s (trapEntry s) :=
  ⟨trapEntry_reg_link s, fun _ hq => trapEntry_reg_other s hq⟩

/-- Output after trap entry leaves the link and the bytes, and nothing else. -/
theorem outWrite_trapEntry_onlyOutput (bs : List Byte) (s : State) : OnlyOutput bs s ((trapEntry s).outWrite bs) :=
  ⟨trapEntry_linked s, rfl, rfl, rfl, fun _ => rfl, rfl, rfl, rfl, rfl⟩

/-! ### The bytes of a cell as numbers (20_memory R49) -/

theorem lowByte_toNat (v : Word) : (lowByte v).toNat = v.toNat % 256 := by
  rw [lowByte, BitVec.extractLsb'_toNat, Nat.shiftRight_zero]

theorem highByte_toNat (v : Word) : (highByte v).toNat = v.toNat / 256 := by
  rw [highByte, BitVec.extractLsb'_toNat, Nat.shiftRight_eq_div_pow]
  exact Nat.mod_eq_of_lt (Nat.div_lt_of_lt_mul v.isLt)

/-- The bytes PUTSP writes of a cell of this number. -/
def putspNumbers (v : Nat) : List Nat := if v / 256 = 0 then [v % 256] else [v % 256, v / 256]

theorem putsBytes_toNat (v : Word) : (putsBytes v).map BitVec.toNat = [v.toNat % 256] :=
  congrArg ([·]) (lowByte_toNat v)

theorem putspBytes_toNat (v : Word) : (putspBytes v).map BitVec.toNat = putspNumbers v.toNat := by
  have hhigh : highByte v = 0#8 ↔ v.toNat / 256 = 0 := by rw [← highByte_toNat, ← BitVec.toNat_inj]; rfl
  rw [putspBytes, putspNumbers]
  split
  next h => rw [if_pos (hhigh.mp h), ← lowByte_toNat]; rfl
  next h => rw [if_neg (mt hhigh.mpr h), ← lowByte_toNat, ← highByte_toNat]; rfl

/-! ### PUTS and PUTSP (44_trap R143, R145) -/

section Strings

variable {s : State} {n : Nat}

/-- A string service that meets its first zero cell `n` cells after R0 writes, of each cell before it, the bytes whose
numbers `numbers` gives. -/
theorem writeString_of_zero_at {bytesOf : Word → List Byte} {numbers : Nat → List Nat}
    (hbytes : ∀ v, (bytesOf v).map BitVec.toNat = numbers v.toNat) (hn : n < 65536)
    (hz : s.peek (s.reg 0 + BitVec.ofNat 16 n) = 0#16)
    (hnz : ∀ k < n, s.peek (s.reg 0 + BitVec.ofNat 16 k) ≠ 0#16) :
    ∃ t bs, writeString bytesOf (trapEntry s) = .next t ∧ OnlyOutput bs s t ∧
      bs.map BitVec.toNat = (List.range n).flatMap fun k => numbers (s.peek (s.reg 0 + BitVec.ofNat 16 k)).toNat := by
  have hstart : (trapEntry s).reg 0 = s.reg 0 := trapEntry_reg_other s (by decide)
  have hnext : writeString bytesOf (trapEntry s) = .next ((trapEntry s).outWrite
      ((List.range n).flatMap fun k => bytesOf (s.peek (s.reg 0 + BitVec.ofNat 16 k)))) := by
    rw [writeString, trapEntry_mem, hstart,
      walkString_of_zero_at s.mem bytesOf n Config.memorySize (s.reg 0) hn hz hnz]
    rfl
  exact ⟨_, _, hnext, outWrite_trapEntry_onlyOutput _ s, by simp only [List.map_flatMap, hbytes]⟩

/-- A string service hangs exactly where no cell is zero. -/
theorem writeString_hangs_iff (bytesOf : Word → List Byte) (u : State) :
    writeString bytesOf u = .fault .stringNeverEnds ↔ ∀ a, u.peek a ≠ 0#16 := by
  refine ⟨fun h => ?_, fun h => ?_⟩
  · rcases writeString_ends bytesOf u with ⟨t, e⟩ | ⟨-, hnz⟩
    · cases h.symm.trans e
    · exact hnz
  · rw [writeString, walkString_of_no_zero u.mem bytesOf _ (u.reg 0) fun k _ => h (u.reg 0 + BitVec.ofNat 16 k)]

end Strings

/-- Settles O33: a walk that gives one byte for each cell is a map over the cells. -/
theorem putsResult : Obligations.PutsResult := by
  intro s n hn hz hnz
  rw [List.map_eq_flatMap]
  exact writeString_of_zero_at (numbers := fun v => [v % 256]) putsBytes_toNat hn hz hnz

/-- Settles O34: the numbers of the bytes of a cell are those of its two halves. -/
theorem putspResult : Obligations.PutspResult := fun _ _ =>
  writeString_of_zero_at putspBytes_toNat

/-- Settles O35: trap entry leaves the cells, and a string service hangs by the cells alone. -/
theorem stringWalkHangsExactlyWithoutAZeroCell : Obligations.StringWalkHangsExactlyWithoutAZeroCell := fun s =>
  ⟨writeString_hangs_iff putsBytes (trapEntry s), writeString_hangs_iff putspBytes (trapEntry s)⟩

/-! ### The vector (44_trap R140, R147, R148) -/

theorem exec_trap_of_unknown_vector (x : BitVec 4) {v : Byte} (hv : isServiceVector v = false) (s : State) :
    exec (.trap x v) s = .next (raiseFatal (.unknownTrapVector v (trapWord x v) (s.pc - 1#16)) (trapEntry s)) := by
  rcases exec_trap_cases x v s with ⟨rfl, -⟩ | ⟨rfl, -⟩ | ⟨rfl, -⟩ | ⟨rfl, -⟩ | ⟨rfl, -⟩ | ⟨rfl, -⟩ | ⟨-, e⟩
  iterate 6 cases hv
  exact e

/-- Settles O27: the fatal condition is raised after trap entry, which it leaves as it is. -/
theorem unknownTrapVectorIsFatal : Obligations.UnknownTrapVectorIsFatal := fun s x _ hv =>
  ⟨_, exec_trap_of_unknown_vector x hv s, rfl, trapEntry_linked s, rfl, rfl, fun _ => rfl, ⟨rfl, rfl⟩, rfl, rfl⟩

/-- Settles O28: TRAP and the service's own row are trap entry and the same service; bits 11:8 go into a fatal record
only. -/
theorem trapSelectsTheService : Obligations.TrapSelectsTheService := fun _ _ => ⟨rfl, rfl, rfl, rfl, rfl, rfl⟩

/-! ### GETC and IN (44_trap R141, R144) -/

/-- The bytes an input service writes before it reads. -/
def promptOf : InputWait → List Byte
  | .getc => []
  | .inp => Config.inPrompt

/-- The bytes an input service writes once it has read. -/
def echoOf : InputWait → Byte → List Byte
  | .getc, _ => []
  | .inp, b => [b]

section Input

variable {s u : State} {b : Byte} {rest bs : List Byte}

/-- Before it reads, an input service has linked R7 and written its prompt. -/
theorem enterInput_onlyOutput (w : InputWait) (s : State) : OnlyOutput (promptOf w) s (enterInput w s) := by
  cases w with
  | getc => exact ⟨trapEntry_linked s, (List.append_nil _).symm, rfl, rfl, fun _ => rfl, rfl, rfl, rfl, rfl⟩
  | inp => exact outWrite_trapEntry_onlyOutput Config.inPrompt s

theorem acceptByte_echoes (w : InputWait) (b : Byte) (s : State) :
    (acceptByte w b s).outq = s.outq ++ echoOf w b := by
  cases w <;> exact acceptByte_outq _ b s

/-- A read of the empty queue begins the wait and leaves the rest. -/
theorem readInput_onlyWait (w : InputWait) (h : OnlyOutput bs s u) (hq : s.inq = []) :
    OnlyWait w bs s (readInput w u) := by
  obtain ⟨hlink, hout, hpc, hcond, hmem, hinq, hrun, hst, -⟩ := h
  rw [readInput_of_empty w (hinq.trans hq)]
  exact ⟨rfl, hlink, hout, hinq.trans hq, hpc, hcond, hmem, hrun, hst⟩

/-- A read that finds a byte writes it to R0 and echoes it; R7 is none of the registers it writes. -/
theorem readInput_onlyInput (w : InputWait) (h : OnlyOutput bs s u) (hq : s.inq = b :: rest) :
    OnlyInput b rest (bs ++ echoOf w b) s (readInput w u) := by
  obtain ⟨⟨hlink, hothers⟩, hout, hpc, -, hmem, hinq, hrun, hst, -⟩ := h
  rw [readInput_of_byte w (hinq.trans hq)]
  have hresult := acceptByte_onlyResult w b { u with inq := rest, waiting := none }
  have hflag := flagOf_of_onlyResult hresult
  obtain ⟨hval, -, hregs, hpc', hmem', ⟨hinq', -⟩, hrun', hst', hwait'⟩ := hresult
  refine ⟨by rw [hval, zext8_toNat], hflag, (hregs 7 (by decide)).trans hlink,
    fun q h0 h7 => (hregs q h0).trans (hothers q h7), hinq', ?_, hpc'.trans hpc, fun a => (hmem' a).trans (hmem a),
    hrun'.trans hrun, hst'.trans hst, hwait'⟩
  rw [acceptByte_echoes, hout, List.append_assoc]

end Input

theorem exec_getc (s : State) : exec .getc s = .next (readInput .getc (enterInput .getc s)) := rfl

theorem exec_inp (s : State) : exec .inp s = .next (readInput .inp (enterInput .inp s)) := rfl

/-- Settles O30: each input service reads the byte after its prompt. -/
theorem inputServicesReadAByte : Obligations.InputServicesReadAByte := fun s _ _ hq =>
  ⟨⟨_, exec_getc s, readInput_onlyInput .getc (enterInput_onlyOutput .getc s) hq⟩,
    ⟨_, exec_inp s, readInput_onlyInput .inp (enterInput_onlyOutput .inp s) hq⟩⟩

/-- Settles O31: each input service begins its wait after its prompt. -/
theorem inputServicesWait : Obligations.InputServicesWait := fun s hq =>
  ⟨⟨_, exec_getc s, readInput_onlyWait .getc (enterInput_onlyOutput .getc s) hq⟩,
    ⟨_, exec_inp s, readInput_onlyWait .inp (enterInput_onlyOutput .inp s) hq⟩⟩

/-! ### OUT and HALT (44_trap R142, R146) -/

/-- R0 is read after trap entry, which leaves it. -/
theorem exec_out (s : State) : exec .out s = .next ((trapEntry s).outWrite [lowByte (s.reg 0)]) := by
  rw [← trapEntry_reg_other s (show (0 : Reg) ≠ 7 by decide)]; rfl

/-- Settles O32: OUT is output after trap entry. -/
theorem outResult : Obligations.OutResult := fun s =>
  ⟨_, _, exec_out s, outWrite_trapEntry_onlyOutput [lowByte (s.reg 0)] s, lowByte_toNat (s.reg 0)⟩

/-- Settles O36: HALT is output after trap entry and the end of the run. -/
theorem haltResult : Obligations.HaltResult := by
  intro s
  obtain ⟨hlink, hout, hpc, hcond, hmem, hinq, -, -, hwait⟩ := outWrite_trapEntry_onlyOutput Config.haltNotice s
  exact ⟨_, rfl, rfl, rfl, hlink, hout, hinq, hpc, hcond, hmem, hwait⟩

end Sys2Proof.Proofs
end

section
/-! PROOFS. 45_reserved: RTI (R160), RES (R161), and that nothing resumes after them (R162). Each is `raiseFatal` with the
record of its own word, and a run that is over stays as it is. -/

namespace Sys2Proof.Proofs

open Sys2Proof.Machine Sys2Proof.Claims

/-! ### A reserved opcode is one fatal condition (45_reserved R160, R161) -/

theorem raiseFatal_onlyFatal (info : FatalInfo) (s : State) : OnlyFatal info s (raiseFatal info s) :=
  ⟨raiseFatal_status s info, raiseFatal_reg s info, raiseFatal_pc s info, raiseFatal_cond s info, raiseFatal_peek s info,
    ⟨raiseFatal_inq s info, raiseFatal_outq s info⟩, raiseFatal_running s info, raiseFatal_waiting s info⟩

theorem exec_rti (x : BitVec 12) (s : State) :
    exec (.rti x) s = .next (raiseFatal (.reservedOpcode 0b1000#4 (0b1000#4 ++ x) (s.pc - 1#16)) s) := rfl

theorem exec_res (x : BitVec 12) (s : State) :
    exec (.res x) s = .next (raiseFatal (.reservedOpcode 0b1101#4 (0b1101#4 ++ x) (s.pc - 1#16)) s) := rfl

/-- Settles O37: each opcode raises its own record. -/
theorem reservedOpcodesAreFatal : Obligations.ReservedOpcodesAreFatal := fun s x =>
  ⟨⟨_, exec_rti x s, raiseFatal_onlyFatal _ s⟩, ⟨_, exec_res x s, raiseFatal_onlyFatal _ s⟩⟩

/-! ### The run is over (45_reserved R162, 60_exceptions R185; log 14) -/

theorem raiseFatal_ended (info : FatalInfo) (s : State) : (raiseFatal info s).status ≠ .running := nofun

section Ended

variable {s : State}

theorem hostAct_of_ended (h : s.status ≠ .running) (a : HostAction) : hostAct a s = s := if_neg h

theorem foldl_hostAct_of_ended (h : s.status ≠ .running) (acts : List HostAction) :
    acts.foldl (fun v a => hostAct a v) s = s :=
  List.foldl_fixed' (hostAct_of_ended h) acts

end Ended

/-! ### Nothing resumes after RTI and RES (45_reserved R162) -/

theorem encode_rti (x : BitVec 12) : encode (.rti x) = 0b1000#4 ++ x := rfl

theorem encode_res (x : BitVec 12) : encode (.res x) = 0b1101#4 ++ x := rfl

/-- RTI and RES raise the fatal condition whose record is read off their own word. -/
theorem exec_reserved {i : Instr} {x : BitVec 12} (hi : i = .rti x ∨ i = .res x) (s : State) :
    exec i s = .next (raiseFatal (.reservedOpcode (opcodeField (encode i)) (encode i) (s.pc - 1#16)) s) := by
  rcases hi with rfl | rfl
  · rw [encode_rti, opcodeField_append, exec_rti]
  · rw [encode_res, opcodeField_append, exec_res]

/-- Settles O38: the fatal status leaves the host's actions without effect and the core without a step. -/
theorem nothingResumesAfterAReservedOpcode : Obligations.NothingResumesAfterAReservedOpcode := by
  intro i s x hi
  refine ⟨_, exec_reserved hi s, raiseFatal_onlyFatal _ s, fun acts u => ?_⟩
  rw [foldl_hostAct_of_ended (raiseFatal_ended _ s)]
  exact ⟨rfl, step_ne_next_of_ended (.inr (raiseFatal_ended _ s)) u⟩

end Sys2Proof.Proofs
end

section
/-! PROOFS. 60_exceptions: the wait inside an input service (R176), trap entry (R175, R177), the outcomes of a step (R170,
R172), and what the host does during a run and after it (R185). -/

namespace Sys2Proof.Proofs

open Sys2Proof.Machine Sys2Proof.Claims

/-! ### The wait (60_exceptions R176; log 3) -/

/-- A `trap` with the vector of a service means what the service's own row means (log 9). -/
theorem exists_wf_exec_eq (i : Instr) (s : State) : ∃ j : Instr, j.wf = true ∧ exec i s = exec j s := by
  cases i with
  | trap x v =>
    rcases exec_trap_cases x v s with ⟨-, e⟩ | ⟨-, e⟩ | ⟨-, e⟩ | ⟨-, e⟩ | ⟨-, e⟩ | ⟨-, e⟩ | ⟨hv, -⟩
    iterate 6 exact ⟨_, rfl, e⟩
    exact ⟨.trap x v, by rw [Instr.wf, hv]; rfl, rfl⟩
  | _ => exact ⟨_, rfl, rfl⟩

/-- Settles O11: a wait begins in `InRead()` with an empty queue, before which only R7 and the prompt are written. -/
theorem condIsUnchangedWhileWaiting : Obligations.CondIsUnchangedWhileWaiting := by
  intro i s t h hs ht
  obtain ⟨j, hj, e⟩ := exists_wf_exec_eq i s
  rw [e] at h
  obtain ⟨w, hservice⟩ := exec_of_wait hj h hs ht
  cases eq_of_next ((hservice s).symm.trans h)
  have hq : s.inq = [] := (enterInput_inq w s).symm.trans (readInput_waits ht).1
  obtain ⟨-, -, -, -, -, hcond, -⟩ := readInput_onlyWait w (enterInput_onlyOutput w s) hq
  exact ⟨hcond, hq⟩

/-! ### Trap entry (60_exceptions R175, R177) -/

theorem trapEntry_onlyPc (s : State) : OnlyPc s.pc s (trapEntry s) :=
  ⟨trapEntry_pc s, trapEntry_cond s, trapEntry_peek s, ⟨trapEntry_inq s, trapEntry_outq s⟩,
    trapEntry_running s, trapEntry_status s, trapEntry_waiting s⟩

/-- Settles O29: every register but R0 is what trap entry left, which wrote R7 alone. -/
theorem trapEntrySavesOnlyTheReturnAddress : Obligations.TrapEntrySavesOnlyTheReturnAddress := by
  refine ⟨fun s => ⟨trapEntry_linked s, trapEntry_onlyPc s⟩, fun i s t hi h => ?_⟩
  obtain ⟨hpc, hmem, hreg, -⟩ := exec_trap_frame hi h
  exact ⟨(hreg 7 (by decide)).trans (trapEntry_reg_link s), hpc,
    fun q h0 h7 => (hreg q h0).trans (trapEntry_reg_other s h7), fun a => congrArg (cellRead · a.toNat) hmem⟩

/-! ### The outcomes of a step (60_exceptions R170, R172; D10) -/

theorem exec_ne_refused (i : Instr) (s : State) (r : Refusal) : exec i s ≠ .refused r := by
  rcases exec_ends i s with ⟨t, e⟩ | ⟨e, -⟩ <;> rw [e] <;> nofun

theorem resumeInput_ne_refused (w : InputWait) (s : State) (r : Refusal) : resumeInput w s ≠ .refused r := by
  cases hq : s.inq with
  | nil => rw [resumeInput_of_empty w hq]; nofun
  | cons b rest => rw [resumeInput_of_byte w hq]; nofun

theorem step_ne_refused (s : State) (r : Refusal) : step s ≠ .refused r := by
  cases henabled : s.enabled with
  | false => rw [step_of_not_enabled henabled]; nofun
  | true =>
    cases hwait : s.waiting with
    | none => rw [step_of_enabled henabled hwait]; exact exec_ne_refused _ _ r
    | some w => rw [step_of_waiting henabled hwait]; exact resumeInput_ne_refused w s r

/-- Settles O45: a step that does not wait is the execution of the fetched word, which ends or walks a string for ever. -/
theorem everyEnabledStateHasANextState : Obligations.EveryEnabledStateHasANextState := by
  refine ⟨step_ne_refused, fun s hst hrun hwait => ?_⟩
  rw [step_of_enabled ((enabled_iff s).mpr ⟨hrun, hst⟩) hwait]
  exact exec_ends _ _

/-! ### The end of a run and the host (60_exceptions R176, R185; D17, D20, logs 12 and 14) -/

section HostActions

variable {s : State}

theorem step_of_ended (h : s.running = false ∨ s.status ≠ .running) : step s = .fault .runEnded := by
  rcases h with h | h <;> exact step_of_not_enabled (by simp [State.enabled, h])

theorem hostAct_supply (h : s.status = .running) (bs : List Byte) :
    hostAct (.supply bs) s = { s with inq := s.inq ++ bs } := if_pos h

theorem hostAct_takeOutput (h : s.status = .running) : hostAct .takeOutput s = s := if_pos h

theorem hostAct_interrupt (h : s.status = .running) : hostAct .interrupt s = { s with status := .interrupted } := if_pos h

theorem hostAct_terminalMode (h : s.status = .running) : hostAct .terminalMode s = s := if_pos h

/-- The invariant does not speak of the input queue. -/
theorem inv_supplied (h : s.Inv) (q : List Byte) : { s with inq := q }.Inv :=
  ⟨h.memory, h.halted, h.waits, h.record⟩

/-- An interrupted run is not halted and not fatal, and its core may be waiting still. -/
theorem inv_interrupted (h : s.Inv) (hst : s.status = .running) : { s with status := .interrupted }.Inv where
  memory := h.memory
  halted := ⟨fun hrun => (nomatch hst.symm.trans (h.halted.mp hrun)), nofun⟩
  waits hwait := ⟨.inr rfl, (h.waits hwait).2⟩
  record := nofun

end HostActions

/-- Settles O40: an action on an ended run is none, and a step of it is not enabled. -/
theorem endedRunIsFinal : Obligations.EndedRunIsFinal :=
  ⟨fun _ => hostAct_of_ended, fun _ => step_of_ended⟩

/-- Settles O54: each action on a run that goes on is one update or none, and the interrupt ends the run. -/
theorem hostActionsTouchOnlyTheirOwn : Obligations.HostActionsTouchOnlyTheirOwn := by
  intro s hst
  refine ⟨hostAct_interrupt hst, hostAct_supply hst, hostAct_takeOutput hst, hostAct_terminalMode hst, ?_⟩
  rw [hostAct_interrupt hst]
  exact step_ne_next_of_ended (.inr nofun)

/-- Settles O58: during a run the host appends input or interrupts; after it the state stays. -/
theorem hostActionsKeepTheInvariant : Obligations.HostActionsKeepTheInvariant := by
  intro a s h
  by_cases hst : s.status = .running
  · cases a with
    | supply bs => rw [hostAct_supply hst]; exact inv_supplied h _
    | takeOutput => rwa [hostAct_takeOutput hst]
    | interrupt => rw [hostAct_interrupt hst]; exact inv_interrupted h hst
    | terminalMode => rwa [hostAct_terminalMode hst]
  · rwa [hostAct_of_ended hst]

end Sys2Proof.Proofs
end

section
/-! PROOFS. 70_reset_and_hazards: the entry point (R191), the loading of images (R193, R194), and the ends of a run (R196). -/

namespace Sys2Proof.Proofs

open Sys2Proof.Machine Sys2Proof.Claims

/-! ### The entry point (70_reset R191) -/

/-- Settles O51: a launch leaves the PC of reset, and a fetch from there polls nothing. -/
theorem entryPointIsFixed : Obligations.EntryPointIsFixed := by
  intro images input s h
  have hpc : s.pc = 0x3000#16 := by rw [(launch_eq h).1]; rfl
  have hne : s.pc ≠ Config.kbsr := by rw [hpc]; decide
  exact ⟨hpc, by rw [fetch_of_ne hne, hpc]⟩

/-! ### One image (70_reset R193, R194) -/

section Image

variable {image : List Byte} {n : Nat}

theorem originNat_lt (image : List Byte) : originNat image < 65536 := by
  unfold originNat
  omega

/-- An image of `2n + 2` bytes is its origin and the `n` words of its payload. -/
theorem imageWords_of_payload (h : image.length = 2 * n + 2) :
    ∃ ws, imageWords image = some (BitVec.ofNat 16 (originNat image) :: ws) ∧ ws.length = n ∧
      ∀ (k : Nat) (hk : k < ws.length), (ws[k]).toNat = payloadNat image k := by
  obtain ⟨words, hwords, hlen, hget⟩ := imageWords_of_even (n + 1) image h
  match words, hlen with
  | origin :: ws, hlen =>
    have horigin : origin.toNat = originNat image := hget 0 (Nat.zero_lt_succ _)
    refine ⟨ws, ?_, Nat.succ.inj hlen, fun k hk => hget (k + 1) (Nat.succ_lt_succ hk)⟩
    rw [hwords, ← horigin, BitVec.ofNat_toNat, BitVec.setWidth_eq]

/-- What loading an image of `2n + 2` bytes does: its payload goes to the cells from its origin on, if it ends by 0xFFFF. -/
theorem loadImage_of_payload (h : image.length = 2 * n + 2) (s : State) :
    ∃ ws : List Word, ws.length = n ∧ (∀ (k : Nat) (hk : k < ws.length), (ws[k]).toNat = payloadNat image k) ∧
      loadImage image s = if originNat image + n ≤ 65536 then
        .ok (loadWords ws (BitVec.ofNat 16 (originNat image)) s) else .error .pastEnd := by
  obtain ⟨ws, hwords, hlen, hget⟩ := imageWords_of_payload h
  have hshort : ¬ image.length < 2 := by omega
  have horigin : (BitVec.ofNat 16 (originNat image)).toNat = originNat image := Nat.mod_eq_of_lt (originNat_lt image)
  refine ⟨ws, hlen, hget, ?_⟩
  rw [loadImage, if_neg hshort, hwords]
  simp only [horigin, hlen, Config.memorySize]

theorem loadImage_of_short (h : image.length < 2) (s : State) : loadImage image s = .error .noOrigin := if_pos h

theorem loadImage_of_odd (h : image.length = 2 * n + 3) (s : State) : loadImage image s = .error .oddLength := by
  have hshort : ¬ image.length < 2 := by omega
  rw [loadImage, if_neg hshort, imageWords_of_odd (n + 1) image h]

theorem loadImage_of_pastEnd (h : image.length = 2 * n + 2) (hend : 65536 < originNat image + n) (s : State) :
    loadImage image s = .error .pastEnd := by
  obtain ⟨ws, -, -, e⟩ := loadImage_of_payload h s
  rw [e, if_neg (Nat.not_le.mpr hend)]

/-- An image the spec does not define is refused over every state (70_reset R194). -/
theorem loadImage_of_undefined
    (h : image.length < 2 ∨ image.length % 2 = 1 ∨ 65536 < originNat image + (image.length - 2) / 2) (s : State) :
    ∃ r, loadImage image s = .error r := by
  by_cases hshort : image.length < 2
  · exact ⟨_, loadImage_of_short hshort s⟩
  obtain ⟨n, hodd | heven⟩ : ∃ n, image.length = 2 * n + 3 ∨ image.length = 2 * n + 2 :=
    ⟨(image.length - 2) / 2, by omega⟩
  · exact ⟨_, loadImage_of_odd hodd s⟩
  · exact ⟨_, loadImage_of_pastEnd heven (by omega) s⟩

theorem loadWords_frame (ws : List Word) (a : Word) (s : State) :
    SameRegs s (loadWords ws a s) ∧ (loadWords ws a s).pc = s.pc ∧ (loadWords ws a s).cond = s.cond ∧
      SameIO s (loadWords ws a s) ∧ SameRun s (loadWords ws a s) := by
  rw [loadWords_fields]
  exact ⟨fun _ => rfl, rfl, rfl, ⟨rfl, rfl⟩, rfl, rfl, rfl⟩

end Image

/-! ### Several images (70_reset R193) -/

section Images

variable {s : State}

theorem loadImages_cons (image : List Byte) (later : List (List Byte)) (s : State) :
    loadImages (image :: later) s = loadImage image s >>= loadImages later := by
  rw [loadImages]
  cases loadImage image s <;> rfl

theorem loadImages_singleton (image : List Byte) (s : State) : loadImages [image] s = loadImage image s :=
  (loadImages_cons image [] s).trans (bind_pure _)

/-- The images that come later are loaded over what the first ones left, or never if one of those is refused. -/
theorem loadImages_append (first later : List (List Byte)) (s : State) :
    loadImages (first ++ later) s = loadImages first s >>= loadImages later := by
  induction first generalizing s with
  | nil => rfl
  | cons image rest ih =>
    rw [List.cons_append, loadImages_cons, loadImages_cons, bind_assoc]
    exact congrArg (loadImage image s >>= ·) (funext ih)

theorem loadImages_append_of_ok {first : List (List Byte)} {t : State} (h : loadImages first s = .ok t)
    (later : List (List Byte)) : loadImages (first ++ later) s = loadImages later t := by
  rw [loadImages_append, h]
  rfl

/-- A list is refused if it holds an image that every state refuses: some image before it is, or it is itself. -/
theorem loadImages_of_refused {image : List Byte} (h : ∀ u, ∃ r, loadImage image u = .error r)
    (before after : List (List Byte)) (s : State) : ∃ r, loadImages (before ++ image :: after) s = .error r := by
  cases hbefore : loadImages before s with
  | error r => exact ⟨r, by rw [loadImages_append, hbefore]; rfl⟩
  | ok u =>
    obtain ⟨r, hr⟩ := h u
    exact ⟨r, by rw [loadImages_append_of_ok hbefore, loadImages_cons, hr]; rfl⟩

end Images

/-- Settles O52: the payload's words are loaded from the origin on, and a launch is the loading of its list. -/
theorem imagesAreLoadedVerbatim : Obligations.ImagesAreLoadedVerbatim := by
  refine ⟨fun image n s hlen hend => ?_, loadImages_singleton, fun _ later _ _ h => loadImages_append_of_ok h later,
    fun image _ => loadImages_singleton image _, fun _ later _ _ h => loadImages_append_of_ok h later⟩
  obtain ⟨ws, rfl, hget, hload⟩ := loadImage_of_payload hlen s
  obtain ⟨hinside, houtside⟩ := loadWords_peek ws (originNat image) s hend
  rw [if_pos hend] at hload
  exact ⟨_, hload, fun k hk => by rw [hinside k hk, hget k hk], houtside, loadWords_frame _ _ s⟩

/-- Settles O53: the image is refused over every state, so also over the one the images before it leave in a launch. -/
theorem undefinedImagesAreRefused : Obligations.UndefinedImagesAreRefused := fun _ h =>
  ⟨loadImage_of_undefined h, fun before after _ => loadImages_of_refused (loadImage_of_undefined h) before after _⟩

/-! ### The ends of a run (70_reset R196) -/

section Ends

variable {s : State}

/-- The invariant holds at every launch and is kept by every step and every host action. -/
theorem inv_of_reachable (h : Reachable s) : s.Inv := by
  induction h with
  | launched hlaunch => exact (launchMeetsTheInvariant _ _ _ hlaunch).1
  | stepped _ hstep ih => exact everyStepKeepsTheInvariant _ _ ih hstep
  | hostActed a _ ih => exact hostActionsKeepTheInvariant a _ ih

theorem stuckOnInput_iff :
    s.stuckOnInput = true ↔ s.enabled = true ∧ (∃ w, s.waiting = some w) ∧ s.inq = [] := by
  simp [State.stuckOnInput, Option.isSome_iff_exists, and_assoc]

theorem running_of_status (h : s.Inv) (hst : s.status = .running) : s.running = true := by
  cases hrun : s.running with
  | true => rfl
  | false => cases hst.symm.trans (h.halted.mp hrun)

theorem status_ne_running_of_not_safe (h : s.safe = false) : s.status ≠ .running := by
  intro hst
  rw [State.safe, hst] at h
  cases h

/-- A run in a fatal end does not wait: it ended in the execution of an instruction. -/
theorem waiting_of_fatal (h : s.Inv) {info : FatalInfo} (hst : s.status = .fatal info) : s.waiting = none := by
  by_contra hwait
  rcases (h.waits hwait).1 with e | e <;> cases hst.symm.trans e

theorem step_of_stuckOnInput (h : s.stuckOnInput = true) : step s = .fault .waitingForInput := by
  obtain ⟨henabled, ⟨w, hwait⟩, hq⟩ := stuckOnInput_iff.mp h
  rw [step_of_waiting henabled hwait, resumeInput_of_empty w hq]

/-- A run that goes on and has no next state waits for a byte that is not there, or walks a string for ever. -/
theorem stuck_or_string_never_ends (h : s.Inv) (hst : s.status = .running) (hnext : ∀ t, step s ≠ .next t) :
    s.stuckOnInput = true ∨
      (step s = .fault .stringNeverEnds ∧ (decode (fetch s).1).walksString = true ∧ ∀ a, (fetch s).2.peek a ≠ 0#16) := by
  have hrun := running_of_status h hst
  have henabled : s.enabled = true := (enabled_iff s).mpr ⟨hrun, hst⟩
  cases hwait : s.waiting with
  | none => exact .inr ((everyEnabledStateHasANextState.2 s hst hrun hwait).resolve_left (not_exists.mpr hnext))
  | some w =>
    cases hq : s.inq with
    | nil => exact .inl (stuckOnInput_iff.mpr ⟨henabled, ⟨w, hwait⟩, hq⟩)
    | cons b rest => exact absurd ((step_of_waiting henabled hwait).trans (resumeInput_of_byte w hq)) (hnext _)

end Ends

/-- Settles O59: a reachable state meets the invariant, which with the step's three answers accounts for every end. -/
theorem reachableEndsAreAccountedFor : Obligations.ReachableEndsAreAccountedFor := by
  intro s hreach
  have h := inv_of_reachable hreach
  refine ⟨h.halted.symm, fun info hst => ⟨h.record info hst, waiting_of_fatal h hst⟩, fun hend => ?_,
    step_of_stuckOnInput, fun hnext => ?_⟩
  · exact step_ne_next_of_ended (.inr (hend.elim status_ne_running_of_not_safe id))
  · exact (em' (s.status = .running)).imp id fun hst => stuck_or_string_never_ends h hst hnext

end Sys2Proof.Proofs
end
